-- ==== Sys2Proof/Word.lean ====
section
/-!
DEFINITION. The value types of the engine: 64-bit words, bytes, command words, and the fixed-size
arrays of words and bytes the datapath works on (00_scope.md R5, R6; 41_word_primitives.md).
-/

namespace Sys2Proof

/-- A 64-bit word (R5, R6): unsigned, bit 0 least significant. -/
abbrev Word := BitVec 64

/-- One octet. -/
abbrev Byte := BitVec 8

/-- A command word `cmd[15:0]` (R60). -/
abbrev CmdWord := BitVec 16

/-- Eight words: a chaining value, a key, a plaintext, a cipher state (R5, R20, R120). -/
abbrev Words := Vector Word 8

/-- A byte sequence of length 64 (R6). -/
abbrev Block := Vector Byte 64

/-- A tweak as its two words `[t0, t1]` (R68). -/
abbrev Tweak := Vector Word 2

end Sys2Proof
end

