-- ==== Sys2Proof/Config.lean ====
section
/-!
DEFINITION. The implementation parameters of 00_scope.md R5, all fixed by the spec but one
(HOST_TRANSPORT), which no rule depends on. The constants of the cipher are in Machine/Constants.lean.
-/

namespace Sys2Proof

/-- `BLOCK_LEN`, in bytes (R5, R25). -/
abbrev Config.blockLen : Nat := 64

/-- `OUT_LEN`, in bytes (R5, R25). -/
abbrev Config.outLen : Nat := 64

/-- `NR`, the rounds of Threefish-512 (R5). -/
abbrev Config.rounds : Nat := 72

/-- `2^96`: the tweak's position field is 96 bits wide (R5, R67), and a position must lie below this. -/
abbrev Config.positionLimit : Nat := 0x1000000000000000000000000

/-- The physical transports D20 names for command words and responses. -/
inductive HostTransport where
  | fifo
  | busRegister
  | stream
  deriving DecidableEq, Repr, Inhabited

/-- `HOST_TRANSPORT`, the spec's one OPEN parameter (D20, I13): no body, so no proof can see which
it is. It "does not affect any rule", so nothing in the model reads it (log 9). -/
opaque Config.hostTransport : HostTransport

end Sys2Proof
end

