-- ==== Sys2Proof/Syntax.lean ====
section
/-!
DEFINITION. The commands of the engine: one constructor per row of spec/opcode_table.json
(30_encoding.md R61). Illegal words are no commands; they are refused in Decode.lean.
-/

namespace Sys2Proof

/-- A legal command (R61, R63). The only operand of the format is UPDATE_BYTE's unsigned octet. -/
inductive Instr where
  /-- `RESET` (R181). -/
  | reset
  /-- `UPDATE_BYTE imm8` (R182). -/
  | updateByte (imm8 : BitVec 8)
  /-- `DIGEST` (R183). -/
  | digest
  /-- `GET_BLOCK_LENGTH` (R184). -/
  | getBlockLength
  /-- `GET_OUTPUT_LENGTH` (R185). -/
  | getOutputLength
  deriving DecidableEq, Repr

end Sys2Proof
end

