-- ==== Sys2Proof/WellFormed.lean ====
section
/-!
DEFINITION. Well-formedness. The type of a command's operand already carries the one bound the spec
puts on it (imm8 is an octet), so what can be ill-formed is a command WORD: the three checks of
30_encoding.md R62, written from that rule's words and apart from the decoder's table.
-/

namespace Sys2Proof

/-- R62, first check: `OP` is in `0x1..0x5`. -/
def CmdWord.opcodeAssigned (w : CmdWord) : Bool :=
  1 ≤ (w.extractLsb' 12 4).toNat && (w.extractLsb' 12 4).toNat ≤ 5

/-- R62, second check: `RSV = 0000`. -/
def CmdWord.reservedClear (w : CmdWord) : Bool :=
  w.extractLsb' 8 4 == 0

/-- R62, third check: when `OP ≠ 0x2`, `IMM8 = 0x00`. -/
def CmdWord.immediateAllowed (w : CmdWord) : Bool :=
  w.extractLsb' 12 4 == 2 || w.extractLsb' 0 8 == 0

/-- `Legal(w)` (R62). -/
def CmdWord.legal (w : CmdWord) : Bool :=
  w.opcodeAssigned && w.reservedClear && w.immediateAllowed

/-- Every command the syntax can write is well-formed: `Instr` holds no operand outside the range
R60 and R63 give it. -/
def Instr.wellFormed : Instr → Bool
  | .reset => true
  | .updateByte imm8 => imm8.toNat < 256
  | .digest => true
  | .getBlockLength => true
  | .getOutputLength => true

end Sys2Proof
end

