-- ==== Sys2Proof/Decode.lean ====
section
/-!
DEFINITION. The decoder of command words, total on all 65536 of them and rejecting by name
(30_encoding.md R60-R63, R75), and the encoder, both from the opcode map of R61.
-/

namespace Sys2Proof

/-- `OP = cmd[15:12]` (R60). -/
def CmdWord.op (w : CmdWord) : BitVec 4 := w.extractLsb' 12 4

/-- `RSV = cmd[11:8]` (R60). -/
def CmdWord.rsv (w : CmdWord) : BitVec 4 := w.extractLsb' 8 4

/-- `IMM8 = cmd[7:0]`, an unsigned octet without extension, scaling or shift (R60, R63). -/
def CmdWord.imm8 (w : CmdWord) : BitVec 8 := w.extractLsb' 0 8

/-- Why a word is illegal: the three causes R221 lists, in its order. The engine records none of them. -/
inductive IllegalReason where
  /-- `OP` is `0x0` or `0x6..0xF`. -/
  | unassignedOpcode
  /-- `RSV ≠ 0`. -/
  | reservedNonzero
  /-- `IMM8 ≠ 0` with `OP ≠ 0x2`. -/
  | immediateNonzero
  deriving DecidableEq, Repr

/-- One row of spec/opcode_table.json: match, mask and the command a matching word stands for. -/
structure OpcodeRow where
  mnemonic : String
  pattern : CmdWord
  mask : CmdWord
  command : CmdWord → Instr

/-- The five rows (R61; match and mask as R62 repeats them). -/
def opcodeTable : List OpcodeRow :=
  [ ⟨"RESET", 0x1000, 0xFFFF, fun _ => .reset⟩,
    ⟨"UPDATE_BYTE", 0x2000, 0xFF00, fun w => .updateByte w.imm8⟩,
    ⟨"DIGEST", 0x3000, 0xFFFF, fun _ => .digest⟩,
    ⟨"GET_BLOCK_LENGTH", 0x4000, 0xFFFF, fun _ => .getBlockLength⟩,
    ⟨"GET_OUTPUT_LENGTH", 0x5000, 0xFFFF, fun _ => .getOutputLength⟩ ]

/-- A word matches a row under its mask. -/
def OpcodeRow.hits (r : OpcodeRow) (w : CmdWord) : Bool := w &&& r.mask == r.pattern

/-- The first cause of R221's list that a word with no row has. -/
def illegalReason (w : CmdWord) : IllegalReason :=
  if w.op = 0 ∨ 6 ≤ w.op.toNat then .unassignedOpcode
  else if w.rsv ≠ 0 then .reservedNonzero
  else .immediateNonzero

/-- The decoder: total, and the same in every state (R60, R62, R75). -/
def decode (w : CmdWord) : Except IllegalReason Instr :=
  match opcodeTable.find? (·.hits w) with
  | some r => .ok (r.command w)
  | none => .error (illegalReason w)

/-- The encoder: the exact words and the pattern of R61. -/
def encode : Instr → CmdWord
  | .reset => 0x1000
  | .updateByte imm8 => 0x2000 ||| imm8.setWidth 16
  | .digest => 0x3000
  | .getBlockLength => 0x4000
  | .getOutputLength => 0x5000

/-- The instruction whose first `nbits` bits are those of `w` and whose bits above are 0, as one
number: what the host's two probes (this file's `decodeTableWord`, Step.lean's `withFetchWord`) hand over. -/
def tableWordValue (nbits w : Nat) : Nat := w % (1 <<< nbits)

/-- What the decoder reads from a table word. A value that does not fit in 16 bits is more than one
command word (R60: "There is no other length"), so it is no instruction. -/
def decodeTableWord (nbits w : Nat) : Option Instr :=
  if tableWordValue nbits w < 0x10000 then
    (decode (BitVec.ofNat 16 (tableWordValue nbits w))).toOption
  else none

end Sys2Proof
end

