-- ==== Sys2Proof/Machine/Constants.lean ====
section
/-!
DEFINITION. The hardwired constants of the engine (10_state.md R25): ZERO8 and ZEROBLOCK, the
Threefish-512 constants, the Skein-512-512 initial chaining value and the configuration block.
-/

namespace Sys2Proof.Machine

/-- `ZERO8` (R108). -/
def zero8 : Words := Vector.replicate 8 0

/-- `ZEROBLOCK` (R108), which is also the padded output counter block (R71). -/
def zeroBlock : Block := Vector.replicate 64 0

/-- `C240`, the key-schedule constant (R121). -/
def c240 : Word := 0x1BD11BDAA9FC1A22

/-- The rotation table `R[d mod 8][j]` (R126). -/
def rotationTable : Vector (Vector Nat 4) 8 :=
  #v[ #v[46, 36, 19, 37],
      #v[33, 27, 14, 42],
      #v[17, 49, 36, 39],
      #v[44,  9, 54, 56],
      #v[39, 30, 34, 24],
      #v[13, 50, 10, 17],
      #v[25, 29, 39, 43],
      #v[ 8, 35, 56, 22] ]

/-- The word permutation `π` (R128). -/
def permutation : Vector (Fin 8) 8 := #v[2, 1, 4, 7, 6, 5, 0, 3]

/-- `IV[0..7]`, the initial chaining value (R152). -/
def iv : Words :=
  #v[ 0x4903ADFF749C51CE, 0x0D95DE399746DF03, 0x8FD1934127C79BCE, 0x9A255629FF352CB1,
      0x5DB62599DF6CA7B0, 0xEABE394CA9D5C3F4, 0x991112C71A75B523, 0xAE18A40B660FCC33 ]

/-- The 32-byte configuration string of R70: schema identifier, version, reserved, output length in
bits, tree fields, reserved. -/
def cfgString : List Byte :=
  [0x53, 0x48, 0x41, 0x33] ++ [0x01, 0x00] ++ [0x00, 0x00]
    ++ [0x00, 0x02, 0x00, 0x00, 0x00, 0x00, 0x00, 0x00]
    ++ [0x00] ++ [0x00] ++ [0x00] ++ List.replicate 13 0x00

end Sys2Proof.Machine
end

