-- ==== Sys2Proof/Machine/Primitives.lean ====
section
/-!
DEFINITION. The word and state primitives (41_word_primitives.md R100-R107): internal datapath
operations, total and pure. All conversions are little-endian (20_memory.md R41).
-/

namespace Sys2Proof.Machine

/-- `Load64LE(B, off)` (R100): the exact integer sum of the eight unsigned bytes, byte
`off + n` with weight `2^(8n)`. The operand range `off + 8 ≤ len(B)` is in the type. -/
def load64le {n : Nat} (b : Vector Byte n) (off : Nat) (h : off + 8 ≤ n := by omega) : Word :=
  BitVec.ofNat 64
    (b[off].toNat + b[off + 1].toNat * 0x100 + b[off + 2].toNat * 0x10000
      + b[off + 3].toNat * 0x1000000 + b[off + 4].toNat * 0x100000000
      + b[off + 5].toNat * 0x10000000000 + b[off + 6].toNat * 0x1000000000000
      + b[off + 7].toNat * 0x100000000000000)

/-- `Store64LE(w)` (R101). -/
def store64le (w : Word) : Vector Byte 8 :=
  #v[ w.extractLsb' 0 8, w.extractLsb' 8 8, w.extractLsb' 16 8, w.extractLsb' 24 8,
      w.extractLsb' 32 8, w.extractLsb' 40 8, w.extractLsb' 48 8, w.extractLsb' 56 8 ]

/-- `BlockWords(B)` (R102, R42). -/
def blockWords (b : Block) : Words := Vector.ofFn fun i : Fin 8 => load64le b (8 * i.val)

/-- `WordsToBytes(w)` (R103, R42): the eight words' bytes one after another, so byte `j` is byte
`j mod 8` of word `j / 8`. -/
def wordsToBytes (w : Words) : Block :=
  Vector.ofFn fun j : Fin 64 => (store64le w[j.val / 8])[j.val % 8]

/-- `Add64(a, b)` (R104): modulo 2^64, the carry discarded. -/
abbrev add64 (a b : Word) : Word := a + b

/-- `Xor64(a, b)` (R105). -/
abbrev xor64 (a b : Word) : Word := a ^^^ b

/-- `RotL64(x, r)` (R106), for `r` in `1..63`. The engine uses no other amount; outside it the
amount is taken modulo 64 (log 7). -/
def rotL64 (x : Word) (r : Nat) : Word := x.rotateLeft r

/-- `XorWords(a, b)` (R107). -/
def xorWords (a b : Words) : Words := Vector.ofFn fun i : Fin 8 => xor64 a[i] b[i]

/-- The word-wise addition of a subkey injection (R130, R131). -/
def addWords (a b : Words) : Words := Vector.ofFn fun i : Fin 8 => add64 a[i] b[i]

/-- A block from a byte string of at most 64 bytes, zero-padded up to the block length (R72, R183). -/
def padBlock (bytes : List Byte) : Block := Vector.ofFn fun j : Fin 64 => bytes.getD j.val 0

/-- `CFGBLOCK` (R70): the configuration string, zero-padded. -/
def cfgBlock : Block := padBlock cfgString

end Sys2Proof.Machine
end

