-- ==== Sys2Proof/Machine/Threefish.lean ====
section
/-!
DEFINITION. The Threefish-512 block cipher, encryption only (42_threefish.md R120-R134): a pure and
total function of key, tweak and plaintext.
-/

namespace Sys2Proof.Machine

/-- `ExtendKey(K)` (R122): the ninth word is C240 XOR the eight key words. -/
def extendKey (k : Words) : Vector Word 9 :=
  #v[ k[0], k[1], k[2], k[3], k[4], k[5], k[6], k[7],
      c240 ^^^ k[0] ^^^ k[1] ^^^ k[2] ^^^ k[3] ^^^ k[4] ^^^ k[5] ^^^ k[6] ^^^ k[7] ]

/-- `ExtendTweak(T)` (R123). -/
def extendTweak (t : Tweak) : Vector Word 3 := #v[ t[0], t[1], t[0] ^^^ t[1] ]

/-- Extended key word `n mod 9` (R125, C1). -/
def keyWord (k : Vector Word 9) (n : Nat) : Word := k[n % 9]'(Nat.mod_lt n (by decide))

/-- Extended tweak word `n mod 3` (R125). -/
def tweakWord (t : Vector Word 3) (n : Nat) : Word := t[n % 3]'(Nat.mod_lt n (by decide))

/-- `Subkey(k, t, s)` (R125). -/
def subkey (k : Vector Word 9) (t : Vector Word 3) (s : Nat) : Words :=
  #v[ keyWord k s,
      keyWord k (s + 1),
      keyWord k (s + 2),
      keyWord k (s + 3),
      keyWord k (s + 4),
      add64 (keyWord k (s + 5)) (tweakWord t s),
      add64 (keyWord k (s + 6)) (tweakWord t (s + 1)),
      add64 (keyWord k (s + 7)) (BitVec.ofNat 64 s) ]

/-- The rotation amount `R[d mod 8][j]` of round `d` and MIX `j` (R126). -/
def rotation (d : Nat) (j : Fin 4) : Nat :=
  (rotationTable[d % 8]'(Nat.mod_lt d (by decide)))[j]

/-- `Mix(a, b, r)` (R127). -/
def mix (a b : Word) (r : Nat) : Word × Word := (add64 a b, xor64 (rotL64 b r) (add64 a b))

/-- The four MIXes of round `d` on the adjacent pairs of words: the `f[0..7]` of R129. -/
def mixLayer (v : Words) (d : Nat) : Words :=
  let m0 := mix v[0] v[1] (rotation d 0)
  let m1 := mix v[2] v[3] (rotation d 1)
  let m2 := mix v[4] v[5] (rotation d 2)
  let m3 := mix v[6] v[7] (rotation d 3)
  #v[ m0.1, m0.2, m1.1, m1.2, m2.1, m2.2, m3.1, m3.2 ]

/-- The word permutation of a round: `v'[i] = f[π(i)]` (R128). -/
def permute (f : Words) : Words := Vector.ofFn fun i : Fin 8 => f[permutation[i]]

/-- `Round(v, d)` (R129). -/
def cipherRound (v : Words) (d : Nat) : Words := permute (mixLayer v d)

/-- The state entering round `d` after the injection schedule of R130: subkey `d/4` is added when
`d mod 4 = 0`, and nothing otherwise. -/
def inject (k : Vector Word 9) (t : Vector Word 3) (v : Words) (d : Nat) : Words :=
  if d % 4 = 0 then addWords v (subkey k t (d / 4)) else v

/-- The state after the first `n` rounds, injections included (the loop of R132). -/
def cipherRounds (k : Vector Word 9) (t : Vector Word 3) (p : Words) : Nat → Words
  | 0 => p
  | d + 1 => cipherRound (inject k t (cipherRounds k t p d) d) d

/-- `Threefish512_Encrypt(K, T, P)` (R132): 72 rounds and the output injection of subkey 18 (R131). -/
def threefish512Encrypt (k : Words) (t : Tweak) (p : Words) : Words :=
  addWords (cipherRounds (extendKey k) (extendTweak t) p Config.rounds)
    (subkey (extendKey k) (extendTweak t) 18)

end Sys2Proof.Machine
end

