-- ==== Sys2Proof/Machine/Ubi.lean ====
section
/-!
DEFINITION. UBI chaining for Skein-512-512 (43_ubi.md R150-R160): the tweak, the compression step,
the message and output passes, and the reference function the commands are measured against.
-/

namespace Sys2Proof.Machine

/-- The type codes' names (R69). The engine issues `cfg`, `msg` and `out` only, and `cfg` only in
the value of `IV` (R152). -/
inductive BlockType where
  | key
  | cfg
  | prs
  | pk
  | kdf
  | non
  | msg
  | out
  deriving DecidableEq, Repr

/-- The type codes (R69), the value of the tweak's 6-bit Type field (R67, C2). -/
def typeCode : BlockType → Nat
  | .key => 0
  | .cfg => 4
  | .prs => 8
  | .pk => 12
  | .kdf => 16
  | .non => 20
  | .msg => 48
  | .out => 63

/-- The 128-bit tweak value `Tw = pos + type * 2^120 + first * 2^126 + final * 2^127` (R150, field
layout R67), for `pos < 2^96`; the callers of the
engine check that bound first (R222; log 14). -/
def tweakValue (pos : Nat) (type : BlockType) (first final : Bool) : BitVec 128 :=
  BitVec.ofNat 128
    (pos + (typeCode type <<< 120) + (first.toNat <<< 126) + (final.toNat <<< 127))

/-- `MakeTweak(pos, type, first, final)` (R150): `[Tw[63:0], Tw[127:64]]` (R68). -/
def makeTweak (pos : Nat) (type : BlockType) (first final : Bool) : Tweak :=
  #v[ (tweakValue pos type first final).extractLsb' 0 64,
      (tweakValue pos type first final).extractLsb' 64 64 ]

/-- `UBI(G, B, pos, type, first, final)` (R151): the chaining value is the key, the block the
plaintext, and the block is XORed into the ciphertext. Irreducible, so that no tactic runs the
compression while comparing states; `unfold` still opens it. -/
@[irreducible] def ubi (g : Words) (b : Block) (pos : Nat) (type : BlockType) (first final : Bool) : Words :=
  xorWords (threefish512Encrypt g (makeTweak pos type first final) (blockWords b)) (blockWords b)

/-- The number of message bytes in block `b` of a message of `n` bytes: `L` of R153. -/
def messageBlockLength (n b : Nat) : Nat := min 64 (n - 64 * b)

/-- Block `b` of a message, zero-padded: `blk` of R153. -/
def messageBlock (m : List Byte) (b : Nat) : Block :=
  padBlock ((m.drop (64 * b)).take (messageBlockLength m.length b))

/-- One iteration of the message pass over a message of `nb` blocks (R153). -/
def messageStep (m : List Byte) (nb : Nat) (g : Words) (b : Nat) : Words :=
  ubi g (messageBlock m b) (64 * b + messageBlockLength m.length b) .msg (b == 0) (b == nb - 1)

/-- `MessagePass(G, M)` (R153, R155). -/
def messagePass (g : Words) (m : List Byte) : Words :=
  if m.length = 0 then ubi g zeroBlock 0 .msg true true
  else
    let nb := (m.length + 63) / 64
    (List.range nb).foldl (messageStep m nb) g

/-- `OutputPass(G)` (R157): the zero counter block at position 8 (R71). -/
def outputPass (g : Words) : Words := ubi g zeroBlock 8 .out true true

/-- `Skein512_512(M)` (R160). -/
def skein512_512 (m : List Byte) : Block := wordsToBytes (outputPass (messagePass iv m))

end Sys2Proof.Machine
end

