-- ==== Sys2Proof/Machine/State.lean ====
section
/-!
DEFINITION. The state of the engine as plain data (10_state.md), the response and error names
(30_encoding.md R64, R65; 60_exceptions.md R220), the reasons a step can stop, and the reset state.
-/

namespace Sys2Proof.Machine

/-- The bytes of the engine's one address space `BUF` (R40) as cells, addresses strictly rising and
no cell holding what an unlisted address reads as (`Memory.wf`). -/
abbrev Memory := List Host.Cell

/-- The two causes of an error (R220). -/
inductive ErrorCause where
  /-- A command word that is not legal (R221). -/
  | illegalCommand
  /-- A compression would need a tweak position of 2^96 or more (R222). -/
  | positionOverflow
  deriving DecidableEq, Repr

/-- The statuses other than OK (R65). -/
inductive ErrorStatus where
  /-- `ILLEGAL_COMMAND`. -/
  | illegalCommand
  /-- `POSITION_OVERFLOW`. -/
  | positionOverflow
  /-- `ERROR_PENDING`: a refusal, not an error cause (R220, R223). -/
  | errorPending
  deriving DecidableEq, Repr

/-- One response (R64): a payload goes with status OK only, "and by nothing otherwise". -/
inductive Response where
  | ok (payload : List Byte)
  | error (status : ErrorStatus)
  deriving DecidableEq, Repr

/-- The engine (10_state.md R20-R24), the command channel (R60, R49), the responses sent (R64) and
the run's fault log (R257). -/
structure State where
  /-- `H[0..7]` (R20). -/
  h : Words
  /-- `BUF[0..63]` (R21, R40). -/
  buf : Memory
  /-- `CNT`, 7 bits (R22). -/
  cnt : BitVec 7
  /-- `POS`, 128 bits (R23). -/
  pos : BitVec 128
  /-- `STATUS.ERR` (R24). -/
  err : Bool
  /-- `STATUS.ERR_CODE` (R24). -/
  errCode : BitVec 8
  /-- Command words sent by the host and not accepted yet, oldest first (R60, R180; log 1). -/
  commands : List CmdWord
  /-- The responses sent, oldest first (R64, R257; log 3). -/
  responses : List Response
  /-- The run-level fault log (R257, D6), oldest first; RESET does not clear it (log 4). -/
  faultLog : List ErrorStatus
  deriving DecidableEq, Repr

/-- What stops the machine. -/
inductive Fault where
  /-- An access to the buffer outside its 64 bytes (R40). Raised by UPDATE_BYTE and DIGEST, and only
  with `CNT` in 65..127, values that "never occur" (R22). SAFE: no run from reset reaches it (log 5). -/
  | bufferRange
  deriving DecidableEq, Repr

/-- Why an instruction has no meaning. -/
inductive Refusal where
  /-- The instruction is not modelled. Raised by an arm of `exec` only; no arm uses it, every command
  has its meaning. SAFE. -/
  | notModelled (mnemonic : String)
  deriving DecidableEq, Repr

/-- The engine after power-on (R31, R250), with nothing sent, nothing answered and an empty fault log. -/
def State.reset : State where
  h := iv
  buf := []
  cnt := 0
  pos := 0
  err := false
  errCode := 0x00
  commands := []
  responses := []
  faultLog := []

/-- What a command answers. -/
abbrev Result := Host.Outcome State Fault Refusal

end Sys2Proof.Machine
end

