-- ==== Sys2Proof/Machine/Memory.lean ====
section
/-!
DEFINITION. The operations over the block buffer's bytes (20_memory.md R40): reading and writing one
byte, clearing, the ranged accesses `MemRead` and `MemWrite` of 00_scope.md R8, and the canonical form.
-/

namespace Sys2Proof.Machine

/-- What an unlisted address reads as: the reset contents of the buffer (R21, R31). -/
def Memory.unlisted : Byte := 0x00

/-- The byte at an address. -/
def Memory.read : Memory → Nat → Byte
  | [], _ => Memory.unlisted
  | (x, b) :: m, a => if x = a then b else Memory.read m a

/-- The memory without the cell of an address. -/
def Memory.erase (m : Memory) (a : Nat) : Memory := m.filter fun c => c.1 ≠ a

/-- The memory with a cell put before the first cell of a greater address. -/
def Memory.insertCell : Memory → Nat → Byte → Memory
  | [], a, b => [(a, b)]
  | c :: m, a, b => if a < c.1 then (a, b) :: c :: m else c :: Memory.insertCell m a b

/-- Write one byte. Writing what an unlisted address reads as removes the cell. -/
def Memory.write (m : Memory) (a : Nat) (b : Byte) : Memory :=
  if b = Memory.unlisted then Memory.erase m a else Memory.insertCell (Memory.erase m a) a b

/-- All bytes `0x00` (R31, R182). -/
def Memory.clear : Memory := []

/-- The canonical form from address `lo` on: strictly rising addresses of the address space 0..63,
no cell equal to what an unlisted address reads as. -/
def Memory.wfFrom (lo : Nat) : Memory → Bool
  | [] => true
  | (a, b) :: m =>
    lo ≤ a && a < Config.blockLen && b != Memory.unlisted && Memory.wfFrom (a + 1) m

/-- The canonical form of a memory. -/
def Memory.wf (m : Memory) : Bool := Memory.wfFrom 0 m

/-- Bytes written one after another from address `a` on. -/
def Memory.writeAll : Memory → Nat → List Byte → Memory
  | m, _, [] => m
  | m, a, b :: bs => Memory.writeAll (Memory.write m a b) (a + 1) bs

/-- `MemRead(BUF, j, n)` (R8, R40): none outside the address space. -/
def memRead (m : Memory) (j n : Nat) : Option (List Byte) :=
  if j + n ≤ Config.blockLen then some ((List.range n).map fun i => m.read (j + i)) else none

/-- `MemWrite(BUF, j, n, v)` of the `n` bytes of `v` (R8, R40): none outside the address space. -/
def memWrite (m : Memory) (j : Nat) (v : List Byte) : Option Memory :=
  if j + v.length ≤ Config.blockLen then some (m.writeAll j v) else none

end Sys2Proof.Machine
end

