-- ==== Sys2Proof/Machine/Operands.lean ====
section
/-!
DEFINITION. What the commands operate on: the immediate octet (30_encoding.md R63) and the two blocks
the engine hands to a compression, the whole held block and the zero-padded final block.
-/

namespace Sys2Proof.Machine

/-- The message octet of UPDATE_BYTE: `IMM8` "without extension, scaling or shift" (R63). -/
def messageOctet (imm8 : BitVec 8) : Byte := imm8

/-- `BlockRead()`: the 64-byte value of `BUF` (R8). -/
def blockRead (m : Memory) : Block := Vector.ofFn fun j : Fin 64 => m.read j.val

/-- DIGEST's block `BUF[0 .. CNT-1] || (64 - CNT) bytes of 0x00` (R183); none when `CNT > 64`, where
the bytes lie outside the buffer. -/
def finalBlock (s : State) : Option Block :=
  match memRead s.buf 0 s.cnt.toNat with
  | some bytes => some (padBlock bytes)
  | none => none

end Sys2Proof.Machine
end

