-- ==== Sys2Proof/Machine/Flags.lean ====
section
/-!
DEFINITION. Status codes (30_encoding.md R65), the derived flags and values of 10_state.md (R23,
R27, R28), the position check of 60_exceptions.md R222, and the setting of STATUS (R224).
-/

namespace Sys2Proof.Machine

/-- The status octet `OK` (R65). -/
def statusOk : Byte := 0x00

/-- The status octets of the other statuses (R65). -/
def ErrorStatus.code : ErrorStatus → Byte
  | .illegalCommand => 0x01
  | .positionOverflow => 0x02
  | .errorPending => 0x03

/-- The status an error cause is reported with (R220, R224). -/
def ErrorCause.status : ErrorCause → ErrorStatus
  | .illegalCommand => .illegalCommand
  | .positionOverflow => .positionOverflow

/-- `code(E)` (R224). -/
def ErrorCause.code (e : ErrorCause) : Byte := e.status.code

/-- The status octet of a response (R64). -/
def Response.status : Response → Byte
  | .ok _ => statusOk
  | .error e => e.code

/-- The octets sent for a response (R64): the status octet, then the payload when it is OK. -/
def Response.octets : Response → List Byte
  | .ok payload => statusOk :: payload
  | .error e => [e.code]

/-- What a response adds to the fault log: every status but OK (R257). -/
def Response.faults : Response → List ErrorStatus
  | .ok _ => []
  | .error e => [e]

/-- `POS_LO = POS[63:0]` (R23). -/
def State.posLo (s : State) : Word := s.pos.extractLsb' 0 64

/-- `POS_HI = POS[127:64]` (R23). -/
def State.posHi (s : State) : Word := s.pos.extractLsb' 64 64

/-- `FIRST = (POS = 0)` (R27). -/
def State.first (s : State) : Bool := s.pos == 0

/-- `ABSORBED = POS + CNT`, an exact integer (R28, R7). -/
def State.absorbed (s : State) : Nat := s.pos.toNat + s.cnt.toNat

/-- A position value fits the tweak's 96-bit field (R222). -/
def positionFits (p : Nat) : Bool := p < Config.positionLimit

/-- The writes of error entry to STATUS: the first error since RESET sets `ERR` and `ERR_CODE`, a
later one changes neither (R224, R227). -/
def State.setError (s : State) (e : ErrorCause) : State :=
  if s.err then s else { s with err := true, errCode := e.code }

end Sys2Proof.Machine
end

