-- ==== Sys2Proof/Machine/Ops.lean ====
section
/-!
DEFINITION. The operations the commands share: accepting a command word, sending a response, error
entry (60_exceptions.md R224), the refusal while an error is pending (R223), the reset values
(10_state.md R31), the compression of the held block and the append of one byte
(44_engine_commands.md R182).
-/

namespace Sys2Proof.Machine

/-- Accept the oldest word of the command channel (R180, R47); none when the host has sent none. -/
def acceptCommand (s : State) : Option (CmdWord × State) :=
  match s.commands with
  | [] => none
  | w :: ws => some (w, { s with commands := ws })

/-- The state with a word put where the engine accepts its next command. -/
def placeCommand (w : CmdWord) (s : State) : State := { s with commands := w :: s.commands }

/-- `respond(status, payload)` (R8, R64): one response, in command order; a status other than OK is
also recorded in the run's fault log (R257). -/
def respond (r : Response) (s : State) : State :=
  { s with responses := s.responses ++ [r], faultLog := s.faultLog ++ r.faults }

/-- `raise E` (R224): taking an error. `H`, `BUF`, `CNT` and `POS` are not written. -/
def raise (e : ErrorCause) (s : State) : State := respond (.error e.status) (s.setError e)

/-- The return from the error state, and power-on: the reset values of R31. RESET is "the only way
out" (R226). The channels and the fault log are not engine state; RESET leaves them (R257). -/
def resetRegisters (s : State) : State :=
  { s with h := iv, buf := Memory.clear, cnt := 0, pos := 0, err := false, errCode := 0x00 }

/-- R180's second check: while `STATUS.ERR = 1` a legal command other than RESET is not executed and
gets ERROR_PENDING (R223). -/
def unlessErrorPending (s : State) (command : State → Result) : Result :=
  if s.err then .next (respond (.error .errorPending) s) else command s

/-- The compression of the held-back block at position `p` (R182): `H`, `POS`, `BUF` and `CNT`. -/
def commitBlock (p : Nat) (s : State) : State :=
  { s with
    h := ubi s.h (blockRead s.buf) p .msg s.first false
    pos := BitVec.ofNat 128 p
    buf := Memory.clear
    cnt := 0 }

/-- `BUF[CNT] <- b; CNT <- CNT + 1; respond(0x00, none)`, the end of R182. With `CNT` above 64 there
is no byte `BUF[CNT]` (R40), and with `CNT = 64` this is never reached (log 5). -/
def appendByte (b : Byte) (s : State) : Result :=
  match memWrite s.buf s.cnt.toNat [b] with
  | some m => .next (respond (.ok []) { s with buf := m, cnt := s.cnt + 1 })
  | none => .fault .bufferRange

/-- The digest bytes of a final block (R183): the final message compression at position `p`, the
output pass on its result, and the serialization. It reads a copy of `H` (R159). -/
def digestBytes (s : State) (blk : Block) (p : Nat) : List Byte :=
  (wordsToBytes (outputPass (ubi s.h blk p .msg s.first true))).toList

/-- An illegal word raises IllegalCommand "before any other check, in every state" (R221). -/
def execIllegal (s : State) : Result := .next (raise .illegalCommand s)

end Sys2Proof.Machine
end

