-- ==== Sys2Proof/Machine/Query.lean ====
section
/-!
DEFINITION. The length queries GET_BLOCK_LENGTH and GET_OUTPUT_LENGTH (44_engine_commands.md R184,
R185): one payload octet, no register written.
-/

namespace Sys2Proof.Machine

/-- `GET_BLOCK_LENGTH` (R184). -/
def execGetBlockLength (s : State) : Result :=
  unlessErrorPending s fun s => .next (respond (.ok [BitVec.ofNat 8 Config.blockLen]) s)

/-- `GET_OUTPUT_LENGTH` (R185). -/
def execGetOutputLength (s : State) : Result :=
  unlessErrorPending s fun s => .next (respond (.ok [BitVec.ofNat 8 Config.outLen]) s)

end Sys2Proof.Machine
end

