-- ==== Sys2Proof/Machine/Stream.lean ====
section
/-!
DEFINITION. The streaming commands RESET, UPDATE_BYTE and DIGEST (44_engine_commands.md R181-R183).
-/

namespace Sys2Proof.Machine

/-- `RESET` (R181), executed also while `STATUS.ERR = 1` (R180). -/
def execReset (s : State) : Result := .next (respond (.ok []) (resetRegisters s))

/-- `UPDATE_BYTE imm8` (R182), with the one-block holdback. -/
def execUpdateByte (imm8 : BitVec 8) (s : State) : Result :=
  unlessErrorPending s fun s =>
    if s.cnt = 64 then
      if positionFits (s.pos.toNat + Config.blockLen) then
        appendByte (messageOctet imm8) (commitBlock (s.pos.toNat + Config.blockLen) s)
      else .next (raise .positionOverflow s)
    else appendByte (messageOctet imm8) s

/-- `DIGEST` (R183): no register is written on success. -/
def execDigest (s : State) : Result :=
  unlessErrorPending s fun s =>
    if positionFits s.absorbed then
      match finalBlock s with
      | some blk => .next (respond (.ok (digestBytes s blk s.absorbed)) s)
      | none => .fault .bufferRange
    else .next (raise .positionOverflow s)

end Sys2Proof.Machine
end

