-- ==== Sys2Proof/Machine/Dispatch.lean ====
section
/-!
DEFINITION. The `case op of` of the command cycle (44_engine_commands.md R180): one arm per command.
-/

namespace Sys2Proof.Machine

/-- The meaning of a legal command. -/
def exec (i : Instr) (s : State) : Host.Outcome State Fault Refusal :=
  match i with
  | .reset => Sys2Proof.Machine.execReset s
  | .updateByte imm8 => Sys2Proof.Machine.execUpdateByte imm8 s
  | .digest => Sys2Proof.Machine.execDigest s
  | .getBlockLength => Sys2Proof.Machine.execGetBlockLength s
  | .getOutputLength => Sys2Proof.Machine.execGetOutputLength s

end Sys2Proof.Machine
end

