-- ==== Sys2Proof/Machine/Step.lean ====
section
/-!
DEFINITION. One step of the engine: the command cycle `Execute(w)` (44_engine_commands.md R180) on
the oldest word the host has sent.
-/

namespace Sys2Proof.Machine

/-- Accept a word, decode it, execute it; an illegal word raises IllegalCommand (R180). With no word
sent nothing changes: "no state changes between commands" (R33; log 2). -/
def step (s : State) : Host.Outcome State Fault Refusal :=
  match acceptCommand s with
  | none => .next s
  | some (w, accepted) =>
    match decode w with
    | .ok i => exec i accepted
    | .error _ => execIllegal accepted

/-- `s` with a table word as the next command the engine accepts (log 1). -/
def State.withFetchWord (s : State) (nbits w : Nat) : State :=
  placeCommand (BitVec.ofNat 16 (tableWordValue nbits w)) s

end Sys2Proof.Machine
end

