-- ==== Sys2Proof/Machine/Assembler.lean ====
section
/-!
DEFINITION. The assembler of 30_encoding.md §4: the command lines of R73 and the pseudo-instructions
of R74, from text to the command words a host sends. Where the two rules only sketch the text (log 18)
the assembler refuses what they do not show.
-/

namespace Sys2Proof.Machine

/-- Why a line does not assemble. Each is an error of the text, never an encoding (R73). -/
inductive AsmError where
  /-- The first word is no mnemonic of R73 or R74. -/
  | unknownMnemonic
  /-- An operand stands after a mnemonic that takes none. -/
  | unexpectedOperand
  /-- An operand is not a number, a quoted text or a hex string as its line wants. -/
  | malformedOperand
  /-- A number outside `0..255` (a byte) or `0..65535` (a raw word). -/
  | operandRange
  deriving DecidableEq, Repr

/-- A line of the assembler after its operands are read. -/
inductive AsmLine where
  /-- A command line of R73. -/
  | command (i : Instr)
  /-- `.CMD <imm16>`: "emits the raw 16-bit word, legal or not". -/
  | rawWord (w : CmdWord)
  /-- `UPDATE` in both its forms, and `UPDATE_HEX` (R74). -/
  | update (bytes : List Byte)
  /-- `DIGEST_BYTES <bytes>` (R74). -/
  | digestBytes (bytes : List Byte)
  deriving DecidableEq, Repr

/-- `UPDATE b0, ..., bn-1` is one UPDATE_BYTE per byte, in order, and nothing for n = 0 (R74). -/
def updateWords (bytes : List Byte) : List CmdWord := bytes.map fun b => encode (.updateByte b)

/-- The command words of a line (R73, R74). -/
def AsmLine.words : AsmLine → List CmdWord
  | .command i => [encode i]
  | .rawWord w => [w]
  | .update bytes => updateWords bytes
  | .digestBytes bytes => updateWords bytes ++ [encode .digest]

/-- Blank characters. -/
def isBlank (c : Char) : Bool := c = ' ' || c = '\t' || c = '\r'

/-- A text without the blanks at its two ends. -/
def trimBlanks (cs : List Char) : List Char :=
  ((cs.dropWhile isBlank).reverse.dropWhile isBlank).reverse

/-- A line without its comment: `;` starts one (R73), except inside a quoted text. -/
def dropComment : Bool → List Char → List Char
  | _, [] => []
  | quoted, c :: cs =>
    if c = ';' && !quoted then []
    else c :: dropComment (if c = '"' then !quoted else quoted) cs

/-- A text cut at every separator. -/
def splitAtChar (sep : Char) : List Char → List (List Char)
  | [] => [[]]
  | c :: cs =>
    match splitAtChar sep cs with
    | [] => [[c]]
    | piece :: pieces => if c = sep then [] :: piece :: pieces else (c :: piece) :: pieces

/-- The value of a hexadecimal digit. -/
def hexDigit (c : Char) : Option Nat :=
  if '0'.toNat ≤ c.toNat ∧ c.toNat ≤ '9'.toNat then some (c.toNat - '0'.toNat)
  else if 'a'.toNat ≤ c.toNat ∧ c.toNat ≤ 'f'.toNat then some (c.toNat - 'a'.toNat + 10)
  else if 'A'.toNat ≤ c.toNat ∧ c.toNat ≤ 'F'.toNat then some (c.toNat - 'A'.toNat + 10)
  else none

/-- Digits of a base read onto a value. -/
def readDigits (base : Nat) : Nat → List Char → Option Nat
  | v, [] => some v
  | v, c :: cs =>
    match hexDigit c with
    | some d => if d < base then readDigits base (v * base + d) cs else none
    | none => none

/-- A number, "decimal or 0x-hex" (R73), with at least one digit. -/
def readNumber : List Char → Option Nat
  | [] => none
  | [c] => readDigits 10 0 [c]
  | c :: x :: cs =>
    if c = '0' && (x = 'x' || x = 'X') then
      if cs.isEmpty then none else readDigits 16 0 cs
    else readDigits 10 0 (c :: x :: cs)

/-- One byte operand; outside `0..255` it "is an assembly error, not an encoding" (R73). -/
def readByte (cs : List Char) : Except AsmError Byte :=
  match readNumber cs with
  | none => .error .malformedOperand
  | some v => if v < 256 then .ok (BitVec.ofNat 8 v) else .error .operandRange

/-- A raw word operand. -/
def readWord (cs : List Char) : Except AsmError CmdWord :=
  match readNumber cs with
  | none => .error .malformedOperand
  | some v => if v < 65536 then .ok (BitVec.ofNat 16 v) else .error .operandRange

/-- Byte operands between commas. -/
def readByteList : List (List Char) → Except AsmError (List Byte)
  | [] => .ok []
  | p :: ps =>
    match readByte (trimBlanks p), readByteList ps with
    | .ok b, .ok bs => .ok (b :: bs)
    | .error e, _ => .error e
    | _, .error e => .error e

/-- The characters of a quoted text up to its closing quote, which ends the operand: "each
character's 8-bit code" of an ASCII text (R74). -/
def readText : List Char → Except AsmError (List Byte)
  | [] => .error .malformedOperand
  | c :: cs =>
    if c = '"' then (if cs.isEmpty then .ok [] else .error .malformedOperand)
    else if 128 ≤ c.toNat then .error .malformedOperand
    else
      match readText cs with
      | .ok bs => .ok (BitVec.ofNat 8 c.toNat :: bs)
      | .error e => .error e

/-- "each hex pair as one byte, in order" (R74). -/
def readHexPairs : List Char → Except AsmError (List Byte)
  | [] => .ok []
  | [_] => .error .malformedOperand
  | c :: d :: cs =>
    match hexDigit c, hexDigit d, readHexPairs cs with
    | some u, some v, .ok bs => .ok (BitVec.ofNat 8 (u * 16 + v) :: bs)
    | _, _, _ => .error .malformedOperand

/-- The operand of `UPDATE` and `DIGEST_BYTES`: nothing, a quoted text, or bytes between commas. -/
def readBytes : List Char → Except AsmError (List Byte)
  | [] => .ok []
  | c :: cs => if c = '"' then readText cs else readByteList (splitAtChar ',' (c :: cs))

/-- A command without operand. -/
def bareCommand (i : Instr) (operand : List Char) : Except AsmError AsmLine :=
  if operand.isEmpty then .ok (.command i) else .error .unexpectedOperand

/-- A line from its mnemonic in capitals and its operand text (R73, R74). -/
def readLine (mnemonic operand : List Char) : Except AsmError AsmLine :=
  if mnemonic = "RESET".toList then bareCommand .reset operand
  else if mnemonic = "DIGEST".toList then bareCommand .digest operand
  else if mnemonic = "GET_BLOCK_LENGTH".toList then bareCommand .getBlockLength operand
  else if mnemonic = "GET_OUTPUT_LENGTH".toList then bareCommand .getOutputLength operand
  else if mnemonic = "UPDATE_BYTE".toList then
    (readByte operand).map fun b => .command (.updateByte b)
  else if mnemonic = ".CMD".toList then (readWord operand).map .rawWord
  else if mnemonic = "UPDATE".toList then (readBytes operand).map .update
  else if mnemonic = "UPDATE_HEX".toList then (readHexPairs operand).map .update
  else if mnemonic = "DIGEST_BYTES".toList then (readBytes operand).map .digestBytes
  else .error .unknownMnemonic

/-- The command words of one line of text; mnemonics are case-insensitive, a blank line has none (R73). -/
def assembleLine (line : List Char) : Except AsmError (List CmdWord) :=
  let body := trimBlanks (dropComment false line)
  if body.isEmpty then .ok []
  else
    (readLine ((body.takeWhile fun c => !isBlank c).map Char.toUpper)
      (trimBlanks (body.dropWhile fun c => !isBlank c))).map AsmLine.words

/-- The command words of lines of text, in order. -/
def assembleLines : List (List Char) → Except AsmError (List CmdWord)
  | [] => .ok []
  | l :: ls =>
    match assembleLine l, assembleLines ls with
    | .ok ws, .ok rest => .ok (ws ++ rest)
    | .error e, _ => .error e
    | _, .error e => .error e

/-- The command words of a program, "one command per line" (R73). -/
def assemble (text : String) : Except AsmError (List CmdWord) :=
  assembleLines (splitAtChar '\n' text.toList)

end Sys2Proof.Machine
end

