-- ==== Sys2Proof/Safety.lean ====
section
/-!
DEFINITION. What the claims call a good state and a good run: the invariants of 10_state.md R26 with
the canonical form of the buffer, the agreement of the fault log with the responses
(70_reset_and_hazards.md R257), and when a run has gone wrong.
-/

namespace Sys2Proof.Machine

/-- The invariants between commands: R26 items 1 to 5, the range of ERR_CODE (R24), and the
canonical form of the model's memory. -/
structure State.Inv (s : State) : Prop where
  /-- R26 item 1. -/
  cnt_le : s.cnt.toNat ≤ 64
  /-- R26 item 2. -/
  pos_blocks : s.pos.toNat % 64 = 0
  /-- R26 item 3. -/
  committed_then_buffered : 0 < s.pos.toNat → 1 ≤ s.cnt.toNat
  /-- R26 item 4. -/
  unused_zero : ∀ j, s.cnt.toNat ≤ j → j < 64 → s.buf.read j = 0x00
  /-- R26 item 5. -/
  err_iff_code : s.err = false ↔ s.errCode = 0x00
  /-- R24: `ERR_CODE` holds `0x00`, `0x01` or `0x02`. -/
  code_range : s.errCode = 0x00 ∨ s.errCode = 0x01 ∨ s.errCode = 0x02
  /-- The canonical form of the buffer's cells. -/
  buf_wf : s.buf.wf = true

/-- The fault log holds the statuses other than OK of the responses, in order (R257). -/
def State.LogAgrees (s : State) : Prop := s.faultLog = s.responses.flatMap Response.faults

/-- A run "goes wrong" if any response has a status other than OK (R257): the fault log remembers. -/
def State.wentWrong (s : State) : Bool := !s.faultLog.isEmpty

/-- `k` steps, stopping at the first fault or refusal. -/
def runSteps : Nat → State → Result
  | 0, s => .next s
  | k + 1, s =>
    match step s with
    | .next t => runSteps k t
    | .fault r => .fault r
    | .refused r => .refused r

/-- A run's words sent one after another from a state (R257): the words are put on the command
channel and the engine takes one step per word. -/
def runWords (ws : List CmdWord) (s : State) : Result := runSteps ws.length { s with commands := ws }

/-- The registers of `t` are those of `s` (the state of R20 to R24). -/
structure State.SameRegisters (s t : State) : Prop where
  h : t.h = s.h
  buf : t.buf = s.buf
  cnt : t.cnt = s.cnt
  pos : t.pos = s.pos
  err : t.err = s.err
  errCode : t.errCode = s.errCode

/-- From `s` to `t` exactly the response `r` was sent, the fault log recorded it if it is not OK, and
no further command word was accepted (R64, R257). -/
structure State.Answered (s t : State) (r : Response) : Prop where
  responses : t.responses = s.responses ++ [r]
  faultLog : t.faultLog = s.faultLog ++ r.faults
  commands : t.commands = s.commands

/-- `G_b` of R187 from a chaining value `G_0`: the value after the first `b` blocks of a message have
been compressed as non-final message blocks. -/
def chainAfter (g : Words) (m : List Byte) : Nat → Words
  | 0 => g
  | b + 1 => ubi (chainAfter g m b) (messageBlock m b) (64 * (b + 1)) .msg (b == 0) false

/-- The message bytes a command carries: the octet of an UPDATE_BYTE, none for any other. -/
def commandBytes : Instr → List Byte
  | .updateByte b => [b]
  | .reset => []
  | .digest => []
  | .getBlockLength => []
  | .getOutputLength => []

/-- A round group: the injection of subkey `s` and the rounds `4s .. 4s+3` (00_scope.md, glossary). -/
def roundGroup (k : Vector Word 9) (t : Vector Word 3) (v : Words) (s : Nat) : Words :=
  cipherRound (cipherRound (cipherRound (cipherRound (addWords v (subkey k t s))
    (4 * s)) (4 * s + 1)) (4 * s + 2)) (4 * s + 3)

end Sys2Proof.Machine
end

