-- ==== Sys2Proof/Certificates/Slice0/Obligations.lean ====
section
/-!
DEFINITION. The statements about the engine, from the numbered rules of spec/. Each docstring names
the rule or the sentence it formalises; where a statement rests on an inference the spec marks as its
own, or on a choice of the model, the docstring says so.
-/

open Sys2Proof Sys2Proof.Machine

/-! ### Reset -/

/-- R250: after power-on `H = IV`, `BUF` all zero, `CNT = 0`, `POS = 0`, `STATUS.ERR = 0`,
`STATUS.ERR_CODE = 0x00`. -/
def Obligations.PowerOnState : Prop :=
  State.reset.h = iv ∧ (∀ j, j < 64 → State.reset.buf.read j = 0x00) ∧ State.reset.cnt = 0 ∧
    State.reset.pos = 0 ∧ State.reset.posLo = 0 ∧ State.reset.posHi = 0 ∧
    State.reset.err = false ∧ State.reset.errCode = 0x00

/-- R181: RESET, at any time, restores every register, answers `00`, and has encoding `0x1000`. -/
def Obligations.ResetRestoresEveryRegister : Prop :=
  encode .reset = 0x1000 ∧
  ∀ s : State, ∃ t, exec .reset s = .next t ∧
    t.h = iv ∧ (∀ j, t.buf.read j = 0x00) ∧ t.cnt = 0 ∧ t.pos = 0 ∧ t.err = false ∧
    t.errCode = 0x00 ∧ s.Answered t (.ok []) ∧ (Response.ok []).octets = [0x00]

/-! ### UPDATE_BYTE -/

/-- R182: the three outcomes of an executed UPDATE_BYTE: room in the buffer, a held block to compress,
and a held block whose position would reach 2^96. -/
def Obligations.UpdateByteAbsorbsOneByte : Prop :=
  ∀ (b : BitVec 8) (s : State), encode (.updateByte b) = (0x20 : BitVec 8) ++ b ∧ (s.err = false →
    (s.cnt.toNat < 64 → ∃ t, exec (.updateByte b) s = .next t ∧
      (∀ j, t.buf.read j = if j = s.cnt.toNat then b else s.buf.read j) ∧
      t.cnt.toNat = s.cnt.toNat + 1 ∧ t.h = s.h ∧ t.pos = s.pos ∧
      t.err = s.err ∧ t.errCode = s.errCode ∧ s.Answered t (.ok [])) ∧
    (s.cnt.toNat = 64 → s.pos.toNat + 64 < 2 ^ 96 → ∃ t, exec (.updateByte b) s = .next t ∧
      t.h = ubi s.h (Vector.ofFn fun j : Fin 64 => s.buf.read j.val) (s.pos.toNat + 64) .msg
        (decide (s.pos = 0)) false ∧
      t.pos.toNat = s.pos.toNat + 64 ∧
      (∀ j, t.buf.read j = if j = 0 then b else 0x00) ∧ t.cnt.toNat = 1 ∧
      t.err = s.err ∧ t.errCode = s.errCode ∧ s.Answered t (.ok [])) ∧
    (s.cnt.toNat = 64 → 2 ^ 96 ≤ s.pos.toNat + 64 → ∃ t, exec (.updateByte b) s = .next t ∧
      t.h = s.h ∧ t.buf = s.buf ∧ t.cnt = s.cnt ∧ t.pos = s.pos ∧
      t.err = true ∧ t.errCode = 0x02 ∧ s.Answered t (.error .positionOverflow)))

/-- The frame of UPDATE_BYTE in every state, whatever its outcome (44_engine_commands.md R182, R224):
with no held block nothing but the byte at `CNT`, the count and the channels changes; `ERR` changes
only together with no register of R20 to R23; `POS` changes only by 64. -/
def Obligations.UpdateByteFrame : Prop :=
  ∀ (b : BitVec 8) (s t : State), exec (.updateByte b) s = .next t →
    t.commands = s.commands ∧
    (s.cnt.toNat ≠ 64 → t.h = s.h ∧ t.pos = s.pos ∧ t.err = s.err ∧ t.errCode = s.errCode ∧
      ∀ a, a ≠ s.cnt.toNat → t.buf.read a = s.buf.read a) ∧
    (t.err ≠ s.err ∨ t.errCode ≠ s.errCode →
      t.h = s.h ∧ t.pos = s.pos ∧ t.cnt = s.cnt ∧ ∀ a, t.buf.read a = s.buf.read a) ∧
    (t.pos ≠ s.pos → t.pos.toNat = s.pos.toNat + 64)

/-- 10_state.md R28 (the spec's own derivation, `ABSORBED = POS + CNT`): an UPDATE_BYTE answered with
OK adds one to the number of absorbed bytes, and any other answer adds none. -/
def Obligations.UpdateByteCountsOneByte : Prop :=
  ∀ (b : BitVec 8) (s t : State) (r : Response), s.cnt.toNat ≤ 64 →
    exec (.updateByte b) s = .next t → t.responses = s.responses ++ [r] →
    t.absorbed = s.absorbed + if r.status = 0x00 then 1 else 0

/-! ### DIGEST -/

/-- R183: DIGEST answers `00` and the serialized output pass of the final message compression of the
zero-padded valid bytes, or raises PositionOverflow when `POS + CNT ≥ 2^96`; no register of R20 to
R23 is written. -/
def Obligations.DigestAnswersFinalBlock : Prop :=
  encode .digest = 0x3000 ∧
  ∀ s : State, s.err = false →
    (s.cnt.toNat ≤ 64 → s.pos.toNat + s.cnt.toNat < 2 ^ 96 → ∃ t, exec .digest s = .next t ∧
      s.SameRegisters t ∧
      s.Answered t (.ok (wordsToBytes (outputPass
        (ubi s.h (Vector.ofFn fun j : Fin 64 => if j.val < s.cnt.toNat then s.buf.read j.val else 0x00)
          (s.pos.toNat + s.cnt.toNat) .msg (decide (s.pos = 0)) true))).toList)) ∧
    (2 ^ 96 ≤ s.pos.toNat + s.cnt.toNat → ∃ t, exec .digest s = .next t ∧
      t.h = s.h ∧ t.buf = s.buf ∧ t.cnt = s.cnt ∧ t.pos = s.pos ∧
      t.err = true ∧ t.errCode = 0x02 ∧ s.Answered t (.error .positionOverflow))

/-- R183, "Padding is by `CNT`, so no byte at an index `≥ CNT` enters as data": two states that agree
on everything but the bytes from `CNT` on, and on what their channels hold, get the same response. -/
def Obligations.DigestIgnoresBytesFromCount : Prop :=
  ∀ (s₁ s₂ t₁ t₂ : State) (r : Response),
    s₁.h = s₂.h → s₁.cnt = s₂.cnt → s₁.pos = s₂.pos → s₁.err = s₂.err →
    (∀ j, j < s₁.cnt.toNat → s₁.buf.read j = s₂.buf.read j) →
    exec .digest s₁ = .next t₁ → exec .digest s₂ = .next t₂ →
    t₁.responses = s₁.responses ++ [r] → t₂.responses = s₂.responses ++ [r]

/-- 44_engine_commands.md R191 item 1 (the spec's own derivation): "DIGEST twice in a row returns the
same 64 bytes twice", and the second one is answered whenever the first one is. -/
def Obligations.DigestRepeatsSameBytes : Prop :=
  ∀ (s t : State) (payload : List Byte),
    exec .digest s = .next t → t.responses = s.responses ++ [.ok payload] →
    payload.length = 64 ∧
    ∃ u, exec .digest t = .next u ∧ u.responses = t.responses ++ [.ok payload] ∧ t.SameRegisters u

/-! ### The length queries -/

/-- R184: GET_BLOCK_LENGTH answers `00 40` in every state without a pending error, writes nothing,
is refused with ERROR_PENDING while one is pending, and has encoding `0x4000`. -/
def Obligations.GetBlockLengthAnswers : Prop :=
  encode .getBlockLength = 0x4000 ∧
  ∀ s : State,
    (s.err = false → ∃ t, exec .getBlockLength s = .next t ∧ s.SameRegisters t ∧
      s.Answered t (.ok [0x40]) ∧ (Response.ok [0x40]).octets = [0x00, 0x40]) ∧
    (s.err = true → ∃ t, exec .getBlockLength s = .next t ∧ s.SameRegisters t ∧
      s.Answered t (.error .errorPending))

/-- R185: GET_OUTPUT_LENGTH answers `00 40` in every state without a pending error, writes nothing,
is refused with ERROR_PENDING while one is pending, and has encoding `0x5000`. -/
def Obligations.GetOutputLengthAnswers : Prop :=
  encode .getOutputLength = 0x5000 ∧
  ∀ s : State,
    (s.err = false → ∃ t, exec .getOutputLength s = .next t ∧ s.SameRegisters t ∧
      s.Answered t (.ok [0x40]) ∧ (Response.ok [0x40]).octets = [0x00, 0x40]) ∧
    (s.err = true → ∃ t, exec .getOutputLength s = .next t ∧ s.SameRegisters t ∧
      s.Answered t (.error .errorPending))

/-! ### Errors -/

/-- R223: while `STATUS.ERR = 1` every command other than RESET changes no register and answers `03`
with no payload. -/
def Obligations.PendingErrorRefusesCommands : Prop :=
  ∀ (i : Instr) (s : State), i ≠ .reset → s.err = true →
    ∃ t, exec i s = .next t ∧ s.SameRegisters t ∧ s.Answered t (.error .errorPending) ∧
      (Response.error .errorPending).octets = [0x03]

/-- R224: error entry sets `ERR` and `ERR_CODE` for the first error only, answers the code with no
payload, and writes nothing else. -/
def Obligations.ErrorEntryWritesStatusOnly : Prop :=
  ∀ (e : ErrorCause) (s : State),
    (raise e s).h = s.h ∧ (raise e s).buf = s.buf ∧ (raise e s).cnt = s.cnt ∧
    (raise e s).pos = s.pos ∧ (raise e s).err = true ∧
    (s.err = false → (raise e s).errCode = e.code) ∧
    (s.err = true → (raise e s).errCode = s.errCode) ∧
    s.Answered (raise e s) (.error e.status) ∧ (Response.error e.status).octets = [e.code] ∧
    ErrorCause.illegalCommand.code = 0x01 ∧ ErrorCause.positionOverflow.code = 0x02

/-- R221: a word whose `OP` is `0x0` or `0x6..0xF`, or with `RSV ≠ 0`, or with `IMM8 ≠ 0` and
`OP ≠ 0x2`, raises IllegalCommand in every state: status `01`, the code recorded if it is the first
error, nothing else written, the word gone. -/
def Obligations.IllegalWordRaisesIllegalCommand : Prop :=
  ∀ (s : State) (w : CmdWord) (ws : List CmdWord), s.commands = w :: ws →
    (w.extractLsb' 12 4 = 0x0 ∨ 0x6 ≤ (w.extractLsb' 12 4).toNat ∨ w.extractLsb' 8 4 ≠ 0x0 ∨
      (w.extractLsb' 0 8 ≠ 0x00 ∧ w.extractLsb' 12 4 ≠ 0x2)) →
    ∃ t, step s = .next t ∧ t.h = s.h ∧ t.buf = s.buf ∧ t.cnt = s.cnt ∧ t.pos = s.pos ∧
      t.err = true ∧ t.errCode = (if s.err then s.errCode else 0x01) ∧ t.commands = ws ∧
      t.responses = s.responses ++ [.error .illegalCommand] ∧
      t.faultLog = s.faultLog ++ [.illegalCommand]

/-- R225: one status per command word, chosen in the order IllegalCommand, ERROR_PENDING,
PositionOverflow, OK. `CNT` is at most 64 (10_state.md R22: the other values never occur). -/
def Obligations.StatusPriority : Prop :=
  ∀ (s : State) (w : CmdWord) (ws : List CmdWord), s.commands = w :: ws → s.cnt.toNat ≤ 64 →
    ∃ t r, step s = .next t ∧ t.responses = s.responses ++ [r] ∧
      r.status =
        if w.legal = false then 0x01
        else if s.err = true ∧ w.op ≠ 0x1 then 0x03
        else if (w.op = 0x2 ∧ s.cnt.toNat = 64 ∧ 2 ^ 96 ≤ s.pos.toNat + 64) ∨
            (w.op = 0x3 ∧ 2 ^ 96 ≤ s.pos.toNat + s.cnt.toNat) then 0x02
        else 0x00

/-- R226: the RESET word is the only way out of the error state, and it restores the reset values. -/
def Obligations.OnlyResetLeavesErrorState : Prop :=
  ∀ (s t : State), s.err = true → step s = .next t →
    (t.err = false ↔ ∃ ws, s.commands = 0x1000 :: ws) ∧
    (t.err = false → t.h = iv ∧ (∀ j, t.buf.read j = 0x00) ∧ t.cnt = 0 ∧ t.pos = 0 ∧
      t.errCode = 0x00)

/-- 60_exceptions.md R227 (the spec's own derivation): while `STATUS.ERR = 1` no step raises
PositionOverflow, and a step that stays in the error state keeps the first error's code. -/
def Obligations.FirstErrorCodeIsKept : Prop :=
  ∀ (s t : State), s.err = true → step s = .next t →
    (t.err = true → t.errCode = s.errCode) ∧
    t.responses ≠ s.responses ++ [.error .positionOverflow]

/-- R65: the status codes, and that no other code is ever sent. -/
def Obligations.StatusCodes : Prop :=
  (∀ p, (Response.ok p).status = 0x00) ∧
  (Response.error .illegalCommand).status = 0x01 ∧
  (Response.error .positionOverflow).status = 0x02 ∧
  (Response.error .errorPending).status = 0x03 ∧
  ∀ r : Response, r.status.toNat < 0x04

/-! ### The command cycle and the channels -/

/-- 44_engine_commands.md R180: a step on an accepted word is the meaning of the command it decodes
to, on the state without that word, and IllegalCommand for a word that decodes to none. -/
def Obligations.StepRunsDecodedCommand : Prop :=
  ∀ (s : State) (w : CmdWord) (ws : List CmdWord), s.commands = w :: ws →
    (∀ i, decode w = .ok i → step s = exec i { s with commands := ws }) ∧
    (∀ e, decode w = .error e → step s = .next (raise .illegalCommand { s with commands := ws }))

/-- With no word sent a step changes nothing: the model's choice (log 2), read from 10_state.md R33,
"no state changes between commands". -/
def Obligations.IdleStepChangesNothing : Prop :=
  ∀ s : State, s.commands = [] → step s = .next s

/-- R64: every command word, legal or not, gets exactly one response, after those sent before; its
octets are one status octet, then the payload when the status is `00`, and nothing otherwise. `CNT` is
at most 64 (10_state.md R22: the other values never occur). -/
def Obligations.OneResponsePerCommand : Prop :=
  ∀ (s : State) (w : CmdWord) (ws : List CmdWord), s.commands = w :: ws → s.cnt.toNat ≤ 64 →
    ∃ t r, step s = .next t ∧ t.commands = ws ∧ t.responses = s.responses ++ [r] ∧
      (∀ p, r = .ok p → r.octets = 0x00 :: p) ∧
      (r.status ≠ 0x00 → r.octets = [r.status])

/-- 30_encoding.md R66 (the lengths and the two constant payloads; the digest's bytes are stated by
DigestAnswersFinalBlock): the octets of an OK response, by the opcode of the word. -/
def Obligations.PayloadByCommand : Prop :=
  ∀ (s t : State) (w : CmdWord) (ws : List CmdWord) (r : Response),
    s.commands = w :: ws → step s = .next t → t.responses = s.responses ++ [r] →
    r.status = 0x00 →
    (w.op = 0x1 → r.octets = [0x00]) ∧ (w.op = 0x2 → r.octets = [0x00]) ∧
    (w.op = 0x3 → r.octets.length = 65) ∧ (w.op = 0x4 → r.octets = [0x00, 0x40]) ∧
    (w.op = 0x5 → r.octets = [0x00, 0x40])

/-- With `CNT` at most 64 no step stops: every command word is answered (00_scope.md R9 and
60_exceptions.md R233: the datapath raises nothing; 70_reset_and_hazards.md R256: every accepted
command is eventually answered). -/
def Obligations.EveryStepAnswers : Prop :=
  ∀ s : State, s.cnt.toNat ≤ 64 → ∃ t, step s = .next t ∧ t.cnt.toNat ≤ 64

/-- The model's choice (log 5): with `CNT` in 65..127, which 10_state.md R22 says never occurs, a
UPDATE_BYTE and a DIGEST that would reach outside the buffer stop with the fault bufferRange. -/
def Obligations.BufferRangeStops : Prop :=
  ∀ s : State, s.err = false → 64 < s.cnt.toNat →
    (∀ b, exec (.updateByte b) s = .fault .bufferRange) ∧
    (s.pos.toNat + s.cnt.toNat < 2 ^ 96 → exec .digest s = .fault .bufferRange)

/-! ### Decoding -/

/-- R62: a word is legal iff `OP` is in `0x1..0x5`, `RSV = 0000` and, when `OP ≠ 0x2`,
`IMM8 = 0x00`; equivalently it matches a row of the table under its mask; the decoder accepts exactly
the legal words and every other word raises IllegalCommand. -/
def Obligations.LegalWordsAreTheDecodedOnes : Prop :=
  ∀ w : CmdWord,
    ((∃ i, decode w = .ok i) ↔
      (1 ≤ w.op.toNat ∧ w.op.toNat ≤ 5 ∧ w.rsv = 0 ∧ (w.op ≠ 2 → w.imm8 = 0))) ∧
    ((∃ i, decode w = .ok i) ↔
      (w &&& 0xFFFF = 0x1000 ∨ w &&& 0xFF00 = 0x2000 ∨ w &&& 0xFFFF = 0x3000 ∨
        w &&& 0xFFFF = 0x4000 ∨ w &&& 0xFFFF = 0x5000)) ∧
    ((∃ i, decode w = .ok i) ↔ w.legal = true) ∧
    ∀ (s : State) (ws : List CmdWord), s.commands = w :: ws → w.legal = false →
      step s = .next (raise .illegalCommand { s with commands := ws })

/-- Decoder and encoder agree on all commands, with every operand, and on all 65536 words
(30_encoding.md R60, R61): no bit of an encoding is dropped and no word has two encodings' meaning. -/
def Obligations.DecodeEncodeAgree : Prop :=
  ∀ (i : Instr) (w : CmdWord), decode w = .ok i ↔ w = encode i

/-- A few words written out bit by bit from the fields of R60 and the map of R61. -/
def Obligations.SampleWordsDecode : Prop :=
  decode 0b0001000000000000 = .ok .reset ∧
  decode 0b0010000001100001 = .ok (.updateByte 0x61) ∧
  decode 0b0010000011111111 = .ok (.updateByte 0xFF) ∧
  decode 0b0011000000000000 = .ok .digest ∧
  decode 0b0100000000000000 = .ok .getBlockLength ∧
  decode 0b0101000000000000 = .ok .getOutputLength ∧
  decode 0b0000000000000000 = .error .unassignedOpcode ∧
  decode 0b0010000100000000 = .error .reservedNonzero ∧
  decode 0b0011000000000001 = .error .immediateNonzero

/-! ### Invariants -/

/-- 10_state.md section 5 (item numbers of R26, the spec's own derivation), with the canonical form of
the model's memory: they hold after power-on. -/
def Obligations.InvariantHoldsAtReset : Prop :=
  State.reset.Inv ∧ State.reset.LogAgrees

/-- 10_state.md section 5: every step keeps the invariants of R26 (the spec's own derivation), the
range of `ERR_CODE` and the canonical form of the memory. -/
def Obligations.StepKeepsInvariant : Prop :=
  ∀ s t : State, s.Inv → step s = .next t → t.Inv

/-- 70_reset_and_hazards.md R257, D6: every step keeps the fault log in agreement with the responses,
never drops an entry (RESET does not clear it), and the run has gone wrong iff some response had a
status other than OK. -/
def Obligations.FaultLogRecordsEveryError : Prop :=
  ∀ s t : State, s.LogAgrees → step s = .next t →
    t.LogAgrees ∧ (∃ new, t.faultLog = s.faultLog ++ new) ∧
    (t.wentWrong = true ↔ ∃ r ∈ t.responses, r.status ≠ 0x00)

/-- No step brings `POS` to 2^96 (60_exceptions.md R222, 90_conflicts.md C8): the position a
compression stores is one that fits the tweak's field. -/
def Obligations.PositionStaysBelowLimit : Prop :=
  ∀ s t : State, s.pos.toNat < 2 ^ 96 → step s = .next t → t.pos.toNat < 2 ^ 96

/-- 10_state.md section 1: a step changes `H` only by RESET (to `IV`) or by the compression inside an
UPDATE_BYTE that finds a held block. -/
def Obligations.ChainingValueWriters : Prop :=
  ∀ s t : State, step s = .next t → t.h ≠ s.h →
    (∃ ws, s.commands = 0x1000 :: ws ∧ t.h = iv) ∨
    (∃ b ws, s.commands = encode (.updateByte b) :: ws ∧ s.cnt.toNat = 64 ∧ s.err = false ∧
      t.h = ubi s.h (blockRead s.buf) (s.pos.toNat + 64) .msg s.first false)

/-- 10_state.md section 2: `POS` changes only by RESET, to zero, or by one block length, at an
UPDATE_BYTE that finds a held block. -/
def Obligations.PositionWriters : Prop :=
  ∀ s t : State, step s = .next t → t.pos ≠ s.pos →
    (∃ ws, s.commands = 0x1000 :: ws ∧ t.pos = 0) ∨
    (∃ b ws, s.commands = encode (.updateByte b) :: ws ∧ s.cnt.toNat = 64 ∧
      t.pos.toNat = s.pos.toNat + 64)

/-- 20_memory.md section 4: DIGEST and the queries write no register when they succeed, and on an
error of DIGEST only STATUS; they store no byte. -/
def Obligations.ReadersWriteNoRegister : Prop :=
  ∀ (i : Instr) (s t : State), i = .digest ∨ i = .getBlockLength ∨ i = .getOutputLength →
    exec i s = .next t →
    t.h = s.h ∧ t.cnt = s.cnt ∧ t.pos = s.pos ∧ t.commands = s.commands ∧
    (∀ a, t.buf.read a = s.buf.read a) ∧
    (∀ p, t.responses = s.responses ++ [.ok p] → t.err = s.err ∧ t.errCode = s.errCode)

/-! ### Sequences of commands -/

/-- 44_engine_commands.md section 3, R187 (the spec's own derivation): the state after RESET and one
UPDATE_BYTE per byte of a message, from any state. R187's last sentence, on commands sent between
them, is InterleavedReadersChangeNothing. -/
def Obligations.StateAfterAbsorbing : Prop :=
  ∀ (m : List Byte) (s : State), m.length < 2 ^ 96 →
    ∃ t, runWords (0x1000 :: updateWords m) s = .next t ∧
      t.pos.toNat = 64 * ((m.length + 63) / 64 - 1) ∧
      t.cnt.toNat = m.length - 64 * ((m.length + 63) / 64 - 1) ∧
      (∀ j, t.buf.read j = (m.drop (64 * ((m.length + 63) / 64 - 1))).getD j 0x00) ∧
      t.h = chainAfter iv m ((m.length + 63) / 64 - 1) ∧
      t.err = false ∧ t.errCode = 0x00 ∧
      t.responses = s.responses ++ List.replicate (m.length + 1) (.ok [])

/-- The last sentence of 44_engine_commands.md section 3, R187 (the spec's own derivation),
"Interleaved GET_* and DIGEST commands change none of this": after RESET and any commands without a
further RESET, the registers are those after RESET and the UPDATE_BYTEs among them alone. Where an
UPDATE_BYTE follows a DIGEST this rests on the model's choice (log 8). -/
def Obligations.InterleavedReadersChangeNothing : Prop :=
  ∀ (cs : List Instr) (s : State), .reset ∉ cs → (cs.flatMap commandBytes).length < 2 ^ 96 →
    ∃ t u, runWords (0x1000 :: updateWords (cs.flatMap commandBytes)) s = .next t ∧
      runWords (0x1000 :: cs.map encode) s = .next u ∧ t.SameRegisters u

/-- 44_engine_commands.md section 3, R190 (the spec's own derivation): RESET, UPDATE M, DIGEST answers
`00` and the reference function's digest of M, for every message shorter than 2^96 bytes, from any
state. -/
def Obligations.CommandsComputeSkein : Prop :=
  ∀ (m : List Byte) (s : State), m.length < 2 ^ 96 →
    ∃ t, runWords (0x1000 :: (updateWords m ++ [0x3000])) s = .next t ∧
      t.responses = s.responses ++ List.replicate (m.length + 1) (.ok []) ++
        [.ok (skein512_512 m).toList] ∧
      t.faultLog = s.faultLog

/-- The model's choice (log 8): bytes absorbed after a DIGEST, with no RESET between, extend the message
absorbed before it. It is the treatment of 44_engine_commands.md section 3 (R186, decision D7);
93_implementation_defined.md I1 would allow a model to refuse those bytes. A later DIGEST returns the
digest of the whole concatenation, as the replay of the concatenation from RESET does. -/
def Obligations.UpdateAfterDigestContinues : Prop :=
  ∀ (x y : List Byte) (s : State), x.length + y.length < 2 ^ 96 →
    ∃ t u, runWords (0x1000 :: (updateWords x ++ [0x3000] ++ updateWords y ++ [0x3000])) s = .next t ∧
      t.responses = s.responses ++ List.replicate (x.length + 1) (.ok []) ++
        [.ok (skein512_512 x).toList] ++ List.replicate y.length (.ok []) ++
        [.ok (skein512_512 (x ++ y)).toList] ∧
      t.faultLog = s.faultLog ∧
      runWords (0x1000 :: (updateWords (x ++ y) ++ [0x3000])) s = .next u ∧
      u.responses.getLast? = t.responses.getLast?

/-- 44_engine_commands.md section 3, R191 item 2 (the spec's own derivation): whatever was absorbed
before a RESET, the digest after it is that of the bytes sent after it. -/
def Obligations.ResetForgetsTheMessage : Prop :=
  ∀ (x y : List Byte) (s : State), s.cnt.toNat ≤ 64 → y.length < 2 ^ 96 →
    ∃ t, runWords (updateWords x ++ 0x1000 :: (updateWords y ++ [0x3000])) s = .next t ∧
      t.responses.getLast? = some (.ok (skein512_512 y).toList)

/-- 44_engine_commands.md section 3, R189 (the spec's own derivation), and R74: splitting a byte
sequence between two `UPDATE` lines gives the same command words, and running them in two runs ends
as running them in one. -/
def Obligations.ChunkingDoesNotMatter : Prop :=
  ∀ (x y : List Byte) (s : State),
    (AsmLine.update (x ++ y)).words = (AsmLine.update x).words ++ (AsmLine.update y).words ∧
    (∀ t, runWords (updateWords x) s = .next t →
      runWords (updateWords (x ++ y)) s = runWords (updateWords y) t)

/-- 70_reset_and_hazards.md R251 (the spec's own derivation): the same command words give the same
responses after a RESET, from any state, as after power-on, and the same registers. -/
def Obligations.ResetEqualsPowerOn : Prop :=
  ∀ (ws : List CmdWord) (s : State), ∃ t u,
    runWords ws State.reset = .next t ∧ runWords (0x1000 :: ws) s = .next u ∧
    u.responses = s.responses ++ [.ok []] ++ t.responses ∧
    u.faultLog = s.faultLog ++ t.faultLog ∧ t.SameRegisters u

/-- R74: `DIGEST_BYTES` is `UPDATE` then `DIGEST`, and `UPDATE` is one UPDATE_BYTE per byte, in order,
and nothing for no byte. (The readings of text, numbers and hex strings are tested, not stated.) -/
def Obligations.PseudoInstructionsExpand : Prop :=
  (AsmLine.update []).words = [] ∧
  (∀ b bs, (AsmLine.update (b :: bs)).words =
    (AsmLine.command (.updateByte b)).words ++ (AsmLine.update bs).words) ∧
  ∀ bs, (AsmLine.digestBytes bs).words =
    (AsmLine.update bs).words ++ (AsmLine.command .digest).words

/-! ### The datapath -/

/-- R100: `Load64LE(B, off)` is the sum of the bytes `B[off + n] * 2^(8n)`, so bits `8n+7 .. 8n` of
the word are the byte `B[off + n]`. -/
def Obligations.LoadIsLittleEndian : Prop :=
  ∀ (n : Nat) (b : Vector Byte n) (off : Nat) (h : off + 8 ≤ n),
    (load64le b off h).toNat =
      b[off].toNat + b[off + 1].toNat * 0x100 + b[off + 2].toNat * 0x10000
        + b[off + 3].toNat * 0x1000000 + b[off + 4].toNat * 0x100000000
        + b[off + 5].toNat * 0x10000000000 + b[off + 6].toNat * 0x1000000000000
        + b[off + 7].toNat * 0x100000000000000 ∧
    ∀ k : Fin 8, (load64le b off h).extractLsb' (8 * k.val) 8 = b[off + k.val]

/-- R101, R103: byte `k` of `Store64LE(w)` is bits `8k+7 .. 8k` of `w`, and byte `8i + k` of
`WordsToBytes(w)` is byte `k` of word `i`. -/
def Obligations.StoreIsLittleEndian : Prop :=
  (∀ (w : Word) (k : Fin 8), (store64le w)[k] = w.extractLsb' (8 * k.val) 8) ∧
  ∀ (w : Words) (i k : Fin 8), (wordsToBytes w)[8 * i.val + k.val] = (store64le w[i])[k]

/-- 41_word_primitives.md, corner cases of R101 and R103 (the spec's own derivation): words to bytes
and bytes to words undo each other. -/
def Obligations.SerializationRoundTrip : Prop :=
  (∀ w : Word, load64le (store64le w) 0 = w) ∧
  (∀ w : Words, blockWords (wordsToBytes w) = w) ∧
  ∀ b : Block, wordsToBytes (blockWords b) = b

/-- R106: for `r` in `1..63`, `RotL64(x, r) = ((x * 2^r) mod 2^64) + floor(x / 2^(64 - r))`;
"Equivalently, bit `(i + r) mod 64` of the result is bit `i` of `x`". -/
def Obligations.RotateLeftFormula : Prop :=
  ∀ (x : Word) (r : Nat), 1 ≤ r → r ≤ 63 →
    (rotL64 x r).toNat = x.toNat * 2 ^ r % 2 ^ 64 + x.toNat / 2 ^ (64 - r) ∧
    ∀ i, i < 64 → (rotL64 x r).getLsbD ((i + r) % 64) = x.getLsbD i

/-- R122, R123: the ninth key word is C240 XOR the eight key words, the third tweak word the XOR of
the two; the others are copied. -/
def Obligations.KeyAndTweakExtension : Prop :=
  (∀ k : Words, (∀ i : Fin 8, (extendKey k)[i.val] = k[i]) ∧
    (extendKey k)[8] = (List.finRange 8).foldl (fun acc i => acc ^^^ k[i]) 0x1BD11BDAA9FC1A22) ∧
  ∀ t : Tweak, (extendTweak t)[0] = t[0] ∧ (extendTweak t)[1] = t[1] ∧
    (extendTweak t)[2] = t[0] ^^^ t[1]

/-- R125: the eight words of subkey `s`, key words modulo 9 and tweak words modulo 3. -/
def Obligations.SubkeyWords : Prop :=
  ∀ (k : Vector Word 9) (t : Vector Word 3) (s : Nat), s ≤ 18 →
    (∀ i : Fin 5, (subkey k t s)[i.val] = k[(s + i.val) % 9]) ∧
    (subkey k t s)[5] = k[(s + 5) % 9] + t[s % 3] ∧
    (subkey k t s)[6] = k[(s + 6) % 9] + t[(s + 1) % 3] ∧
    (subkey k t s)[7] = k[(s + 7) % 9] + BitVec.ofNat 64 s

/-- R127, R128, R129: one round is four MIXes of adjacent words and the word permutation
`[f2, f1, f4, f7, f6, f5, f0, f3]`. -/
def Obligations.RoundMixesAndPermutes : Prop :=
  (∀ (a b : Word) (r : Nat), (mix a b r).1.toNat = (a.toNat + b.toNat) % 2 ^ 64 ∧
    (mix a b r).2 = rotL64 b r ^^^ (mix a b r).1) ∧
  ∀ (v : Words) (d : Nat),
    cipherRound v d =
      #v[ (mix v[2] v[3] (rotation d 1)).1, (mix v[0] v[1] (rotation d 0)).2,
          (mix v[4] v[5] (rotation d 2)).1, (mix v[6] v[7] (rotation d 3)).2,
          (mix v[6] v[7] (rotation d 3)).1, (mix v[4] v[5] (rotation d 2)).2,
          (mix v[0] v[1] (rotation d 0)).1, (mix v[2] v[3] (rotation d 1)).2 ]

/-- 42_threefish.md section 4 (the injection schedule of R130 and the output injection of R131): the
72-round loop is 18 round groups, each the injection of subkey `s` and rounds `4s .. 4s+3`, and the
injection of subkey 18. -/
def Obligations.CipherIsEighteenRoundGroups : Prop :=
  ∀ (k : Words) (t : Tweak) (p : Words),
    threefish512Encrypt k t p =
      addWords ((List.range 18).foldl (roundGroup (extendKey k) (extendTweak t)) p)
        (subkey (extendKey k) (extendTweak t) 18)

/-- R67: the fields of the tweak `T = t0 + 2^64 * t1` made for a position below 2^96. -/
def Obligations.TweakFields : Prop :=
  ∀ (pos : Nat) (type : BlockType) (first final : Bool), pos < 2 ^ 96 →
    let T : BitVec 128 := (makeTweak pos type first final)[1] ++ (makeTweak pos type first final)[0]
    (T.extractLsb' 0 96).toNat = pos ∧ T.extractLsb' 96 16 = 0 ∧ T.extractLsb' 112 7 = 0 ∧
    T.getLsbD 119 = false ∧ (T.extractLsb' 120 6).toNat = typeCode type ∧
    T.getLsbD 126 = first ∧ T.getLsbD 127 = final

/-- R152: `IV = UBI(ZERO8, CFGBLOCK, 32, 4, 1, 1)`, and its eight published values. -/
def Obligations.IvIsTheConfigurationPass : Prop :=
  iv = ubi zero8 cfgBlock 32 .cfg true true ∧
  iv = #v[ 0x4903ADFF749C51CE, 0x0D95DE399746DF03, 0x8FD1934127C79BCE, 0x9A255629FF352CB1,
           0x5DB62599DF6CA7B0, 0xEABE394CA9D5C3F4, 0x991112C71A75B523, 0xAE18A40B660FCC33 ]

/-- R154, R155, R156: the last compression of a message pass is final and carries the message length
as its position; the empty message is one zero block at position 0; a message that ends on a block
boundary has its last full block as the final block. -/
def Obligations.MessagePassFinalBlock : Prop :=
  (∀ g : Words, messagePass g [] = ubi g zeroBlock 0 .msg true true) ∧
  (∀ (g : Words) (m : List Byte), 0 < m.length →
    messagePass g m =
      ubi (chainAfter g m ((m.length + 63) / 64 - 1))
        (padBlock (m.drop (64 * ((m.length + 63) / 64 - 1)))) m.length .msg
        (decide (m.length ≤ 64)) true) ∧
  ∀ (g : Words) (m : List Byte) (q : Nat), m.length = 64 * (q + 1) →
    messagePass g m =
      ubi (chainAfter g m q) (padBlock (m.drop (64 * q))) (64 * (q + 1)) .msg (decide (q = 0)) true
end

