-- ==== Sys2Proof/Laws/Memory.lean ====
section
/-!
SUPPORT. The laws of the buffer's memory: what a read gives after each operation, that every
operation keeps the canonical form, and that in that form equal reads are equal memories.
-/

namespace Sys2Proof.Machine

@[simp] theorem read_nil (a : Nat) : Memory.read [] a = 0x00 := rfl

@[simp] theorem read_clear (a : Nat) : Memory.clear.read a = 0x00 := rfl

theorem read_cons (x : Nat) (b : Byte) (m : Memory) (a : Nat) :
    Memory.read ((x, b) :: m) a = if x = a then b else Memory.read m a := rfl

theorem read_erase (m : Memory) (a j : Nat) :
    (m.erase a).read j = if j = a then 0x00 else m.read j := by
  induction m with
  | nil => simp [Memory.erase, Memory.read, Memory.unlisted]
  | cons c m ih =>
    obtain ⟨x, b⟩ := c
    unfold Memory.erase at ih ⊢
    by_cases hx : x = a
    · subst hx
      simp only [List.filter_cons, ne_eq, not_true, decide_false, Bool.false_eq_true, if_false, ih,
        read_cons]
      by_cases hj : j = x
      · simp [hj]
      · simp [hj, Ne.symm hj]
    · simp only [List.filter_cons, ne_eq, hx, not_false_eq_true, decide_true, if_true, read_cons, ih]
      by_cases hj : j = a
      · subst hj; simp [hx]
      · simp [hj]

theorem read_insertCell (m : Memory) (a : Nat) (b : Byte) (ha : ∀ c ∈ m, c.1 ≠ a) (j : Nat) :
    (m.insertCell a b).read j = if j = a then b else m.read j := by
  induction m with
  | nil => by_cases hj : j = a <;> simp [Memory.insertCell, read_cons, hj, Ne.symm]
  | cons c m ih =>
    obtain ⟨x, y⟩ := c
    have hx : x ≠ a := ha (x, y) (by simp)
    have ih := ih fun c hc => ha c (by simp [hc])
    unfold Memory.insertCell
    split
    · by_cases hj : j = a <;> simp [read_cons, hj, Ne.symm]
    · rw [read_cons, read_cons, ih]
      by_cases hj : j = a
      · subst hj; simp [hx]
      · simp [hj]

theorem not_mem_erase (m : Memory) (a : Nat) : ∀ c ∈ m.erase a, c.1 ≠ a := by
  simp [Memory.erase]

/-- A byte just written is read back, and every other byte is as before. -/
theorem read_write (m : Memory) (a : Nat) (b : Byte) (j : Nat) :
    (m.write a b).read j = if j = a then b else m.read j := by
  unfold Memory.write
  split
  · next h => rw [read_erase]; split <;> simp_all [Memory.unlisted]
  · rw [read_insertCell _ _ _ (not_mem_erase m a), read_erase]
    by_cases hj : j = a <;> simp [hj]

/-! ### The canonical form -/

theorem wfFrom_cons (lo a : Nat) (b : Byte) (m : Memory) :
    Memory.wfFrom lo ((a, b) :: m) = true ↔
      lo ≤ a ∧ a < 64 ∧ b ≠ 0x00 ∧ Memory.wfFrom (a + 1) m = true := by
  simp [Memory.wfFrom, Memory.unlisted, and_assoc]

theorem wfFrom_mono {lo lo' : Nat} {m : Memory} (h : lo' ≤ lo) (hm : m.wfFrom lo = true) :
    m.wfFrom lo' = true := by
  cases m with
  | nil => rfl
  | cons c m =>
    obtain ⟨a, b⟩ := c
    rw [wfFrom_cons] at hm ⊢
    exact ⟨by omega, hm.2⟩

theorem wfFrom_mem {lo : Nat} {m : Memory} (hm : m.wfFrom lo = true) :
    ∀ c ∈ m, lo ≤ c.1 ∧ c.1 < 64 ∧ c.2 ≠ 0x00 := by
  induction m generalizing lo with
  | nil => simp
  | cons c m ih =>
    obtain ⟨a, b⟩ := c
    rw [wfFrom_cons] at hm
    intro c hc
    rcases List.mem_cons.1 hc with rfl | hc
    · exact ⟨hm.1, hm.2.1, hm.2.2.1⟩
    · have := ih hm.2.2.2 c hc
      exact ⟨by omega, this.2⟩

theorem wfFrom_erase {lo : Nat} {m : Memory} (hm : m.wfFrom lo = true) (a : Nat) :
    (m.erase a).wfFrom lo = true := by
  induction m generalizing lo with
  | nil => rfl
  | cons c m ih =>
    obtain ⟨x, b⟩ := c
    rw [wfFrom_cons] at hm
    have ih := ih hm.2.2.2
    unfold Memory.erase at ih ⊢
    rw [List.filter_cons]
    split
    · rw [wfFrom_cons]; exact ⟨hm.1, hm.2.1, hm.2.2.1, ih⟩
    · exact wfFrom_mono (by omega) ih

theorem wfFrom_insertCell {lo a : Nat} {b : Byte} {m : Memory} (hm : m.wfFrom lo = true)
    (hlo : lo ≤ a) (ha : a < 64) (hb : b ≠ 0x00) (hne : ∀ c ∈ m, c.1 ≠ a) :
    (m.insertCell a b).wfFrom lo = true := by
  induction m generalizing lo with
  | nil => simp only [Memory.insertCell, wfFrom_cons]; exact ⟨hlo, ha, hb, rfl⟩
  | cons c m ih =>
    obtain ⟨x, y⟩ := c
    have hx : x ≠ a := hne (x, y) (by simp)
    rw [wfFrom_cons] at hm
    unfold Memory.insertCell
    split
    · next h =>
      simp only [wfFrom_cons]
      exact ⟨hlo, ha, hb, by simpa using h, hm.2⟩
    · next h =>
      have h : ¬ a < x := h
      rw [wfFrom_cons]
      exact ⟨hm.1, hm.2.1, hm.2.2.1, ih hm.2.2.2 (by omega) fun c hc => hne c (by simp [hc])⟩

/-- Writing a byte of the address space keeps the canonical form. -/
theorem write_wf {m : Memory} (hm : m.wf = true) {a : Nat} (ha : a < 64) (b : Byte) :
    (m.write a b).wf = true := by
  unfold Memory.write
  split
  · exact wfFrom_erase hm a
  · next h => exact wfFrom_insertCell (wfFrom_erase hm a) (Nat.zero_le a) ha h (not_mem_erase m a)

/-- Clearing gives the canonical form. -/
theorem clear_wf : Memory.clear.wf = true := rfl

/-- The reset state's memory has the canonical form. -/
theorem reset_buf_wf : State.reset.buf.wf = true := rfl

theorem writeAll_wf {m : Memory} (hm : m.wf = true) {a : Nat} (v : List Byte)
    (h : a + v.length ≤ 64) : (m.writeAll a v).wf = true := by
  induction v generalizing m a with
  | nil => exact hm
  | cons b bs ih =>
    simp only [List.length_cons] at h
    exact ih (write_wf hm (by omega) b) (by omega)

/-- Every ranged write the engine can make keeps the canonical form. -/
theorem memWrite_wf {m m' : Memory} (hm : m.wf = true) {j : Nat} {v : List Byte}
    (h : memWrite m j v = some m') : m'.wf = true := by
  unfold memWrite at h
  split at h
  · next hr => cases h; exact writeAll_wf hm v hr
  · cases h

/-- In the canonical form an address outside the buffer is not listed. -/
theorem read_of_wf {m : Memory} (hm : m.wf = true) {a : Nat} (ha : 64 ≤ a) : m.read a = 0x00 := by
  have h := wfFrom_mem hm
  clear hm
  induction m with
  | nil => rfl
  | cons c m ih =>
    obtain ⟨x, b⟩ := c
    have hx := (h (x, b) (by simp)).2.1
    rw [read_cons, if_neg (by simp at hx; omega)]
    exact ih fun c hc => h c (by simp [hc])

theorem read_below {lo : Nat} {m : Memory} (hm : m.wfFrom lo = true) {a : Nat} (ha : a < lo) :
    m.read a = 0x00 := by
  induction m generalizing lo with
  | nil => rfl
  | cons c m ih =>
    obtain ⟨x, b⟩ := c
    rw [wfFrom_cons] at hm
    rw [read_cons, if_neg (by omega)]
    exact ih hm.2.2.2 (by omega)

theorem ext_of_wfFrom {lo : Nat} {m m' : Memory} (hm : m.wfFrom lo = true)
    (hm' : m'.wfFrom lo = true) (h : ∀ a, m.read a = m'.read a) : m = m' := by
  induction m generalizing lo m' with
  | nil =>
    cases m' with
    | nil => rfl
    | cons c m' =>
      obtain ⟨x, b⟩ := c
      have := h x
      rw [wfFrom_cons] at hm'
      simp [read_cons] at this
      exact absurd this.symm hm'.2.2.1
  | cons c m ih =>
    obtain ⟨x, b⟩ := c
    rw [wfFrom_cons] at hm
    cases m' with
    | nil =>
      have := h x
      simp [read_cons] at this
      exact absurd this hm.2.2.1
    | cons c' m' =>
      obtain ⟨y, b'⟩ := c'
      rw [wfFrom_cons] at hm'
      have hxy : x = y := by
        rcases Nat.lt_trichotomy x y with hlt | heq | hgt
        · have := h x
          rw [read_cons, if_pos rfl, read_cons, if_neg (by omega),
            read_below hm'.2.2.2 (by omega)] at this
          exact absurd this hm.2.2.1
        · exact heq
        · have := h y
          rw [read_cons, if_neg (by omega), read_below hm.2.2.2 (by omega), read_cons,
            if_pos rfl] at this
          exact absurd this.symm hm'.2.2.1
      subst hxy
      have hb : b = b' := by simpa [read_cons] using h x
      subst hb
      congr 1
      refine ih hm.2.2.2 hm'.2.2.2 fun a => ?_
      by_cases ha : x = a
      · subst ha; rw [read_below hm.2.2.2 (by omega), read_below hm'.2.2.2 (by omega)]
      · simpa [read_cons, ha] using h a

/-- Memories in canonical form that read alike are equal data. -/
theorem memory_ext {m m' : Memory} (hm : m.wf = true) (hm' : m'.wf = true)
    (h : ∀ a, m.read a = m'.read a) : m = m' := ext_of_wfFrom hm hm' h

/-! ### The ranged accesses -/

/-- A one-byte write inside the buffer is the write of that byte. -/
theorem memWrite_one {m : Memory} {j : Nat} (hj : j < 64) (b : Byte) :
    memWrite m j [b] = some (m.write j b) := by
  simp [memWrite, Memory.writeAll]; omega

/-- A one-byte write outside the buffer is none. -/
theorem memWrite_one_out {m : Memory} {j : Nat} (hj : 64 ≤ j) (b : Byte) :
    memWrite m j [b] = none := by
  simp [memWrite]; omega

/-- A read of the first `n` bytes inside the buffer. -/
theorem memRead_zero {m : Memory} {n : Nat} (hn : n ≤ 64) :
    memRead m 0 n = some ((List.range n).map m.read) := by
  simp [memRead, hn]

/-- A read past the buffer's end is none. -/
theorem memRead_out {m : Memory} {n : Nat} (hn : 64 < n) : memRead m 0 n = none := by
  simp [memRead]; omega

end Sys2Proof.Machine
end

