-- ==== Sys2Proof/Laws/State.lean ====
section
/-!
SUPPORT. One lemma per field per update of State, each true by definition, so that no later proof
unfolds a record update.
-/

namespace Sys2Proof.Machine

/-! ### Sending a response -/

@[simp] theorem respond_h (r : Response) (s : State) : (respond r s).h = s.h := rfl
@[simp] theorem respond_buf (r : Response) (s : State) : (respond r s).buf = s.buf := rfl
@[simp] theorem respond_cnt (r : Response) (s : State) : (respond r s).cnt = s.cnt := rfl
@[simp] theorem respond_pos (r : Response) (s : State) : (respond r s).pos = s.pos := rfl
@[simp] theorem respond_err (r : Response) (s : State) : (respond r s).err = s.err := rfl
@[simp] theorem respond_errCode (r : Response) (s : State) : (respond r s).errCode = s.errCode := rfl
@[simp] theorem respond_commands (r : Response) (s : State) : (respond r s).commands = s.commands := rfl
@[simp] theorem respond_responses (r : Response) (s : State) : (respond r s).responses = s.responses ++ [r] := rfl
@[simp] theorem respond_faultLog (r : Response) (s : State) : (respond r s).faultLog = s.faultLog ++ r.faults := rfl

/-! ### The reset values -/

@[simp] theorem resetRegisters_h (s : State) : (resetRegisters s).h = iv := rfl
@[simp] theorem resetRegisters_buf (s : State) : (resetRegisters s).buf = Memory.clear := rfl
@[simp] theorem resetRegisters_cnt (s : State) : (resetRegisters s).cnt = 0 := rfl
@[simp] theorem resetRegisters_pos (s : State) : (resetRegisters s).pos = 0 := rfl
@[simp] theorem resetRegisters_err (s : State) : (resetRegisters s).err = false := rfl
@[simp] theorem resetRegisters_errCode (s : State) : (resetRegisters s).errCode = 0x00 := rfl
@[simp] theorem resetRegisters_commands (s : State) : (resetRegisters s).commands = s.commands := rfl
@[simp] theorem resetRegisters_responses (s : State) : (resetRegisters s).responses = s.responses := rfl
@[simp] theorem resetRegisters_faultLog (s : State) : (resetRegisters s).faultLog = s.faultLog := rfl

/-! ### The compression of the held block -/

@[simp] theorem commitBlock_h (p : Nat) (s : State) : (commitBlock p s).h = ubi s.h (blockRead s.buf) p .msg s.first false := rfl
@[simp] theorem commitBlock_buf (p : Nat) (s : State) : (commitBlock p s).buf = Memory.clear := rfl
@[simp] theorem commitBlock_cnt (p : Nat) (s : State) : (commitBlock p s).cnt = 0 := rfl
@[simp] theorem commitBlock_pos (p : Nat) (s : State) : (commitBlock p s).pos = BitVec.ofNat 128 p := rfl
@[simp] theorem commitBlock_err (p : Nat) (s : State) : (commitBlock p s).err = s.err := rfl
@[simp] theorem commitBlock_errCode (p : Nat) (s : State) : (commitBlock p s).errCode = s.errCode := rfl
@[simp] theorem commitBlock_commands (p : Nat) (s : State) : (commitBlock p s).commands = s.commands := rfl
@[simp] theorem commitBlock_responses (p : Nat) (s : State) : (commitBlock p s).responses = s.responses := rfl
@[simp] theorem commitBlock_faultLog (p : Nat) (s : State) : (commitBlock p s).faultLog = s.faultLog := rfl

/-! ### Placing a command -/

@[simp] theorem placeCommand_h (w : CmdWord) (s : State) : (placeCommand w s).h = s.h := rfl
@[simp] theorem placeCommand_buf (w : CmdWord) (s : State) : (placeCommand w s).buf = s.buf := rfl
@[simp] theorem placeCommand_cnt (w : CmdWord) (s : State) : (placeCommand w s).cnt = s.cnt := rfl
@[simp] theorem placeCommand_pos (w : CmdWord) (s : State) : (placeCommand w s).pos = s.pos := rfl
@[simp] theorem placeCommand_err (w : CmdWord) (s : State) : (placeCommand w s).err = s.err := rfl
@[simp] theorem placeCommand_errCode (w : CmdWord) (s : State) : (placeCommand w s).errCode = s.errCode := rfl
@[simp] theorem placeCommand_commands (w : CmdWord) (s : State) : (placeCommand w s).commands = w :: s.commands := rfl
@[simp] theorem placeCommand_responses (w : CmdWord) (s : State) : (placeCommand w s).responses = s.responses := rfl
@[simp] theorem placeCommand_faultLog (w : CmdWord) (s : State) : (placeCommand w s).faultLog = s.faultLog := rfl

/-! ### Setting STATUS, and error entry -/

@[simp] theorem setError_h (s : State) (e : ErrorCause) : (s.setError e).h = s.h := by
  unfold State.setError; split <;> rfl
@[simp] theorem setError_buf (s : State) (e : ErrorCause) : (s.setError e).buf = s.buf := by
  unfold State.setError; split <;> rfl
@[simp] theorem setError_cnt (s : State) (e : ErrorCause) : (s.setError e).cnt = s.cnt := by
  unfold State.setError; split <;> rfl
@[simp] theorem setError_pos (s : State) (e : ErrorCause) : (s.setError e).pos = s.pos := by
  unfold State.setError; split <;> rfl
@[simp] theorem setError_err (s : State) (e : ErrorCause) : (s.setError e).err = true := by
  unfold State.setError; split <;> simp_all
@[simp] theorem setError_errCode (s : State) (e : ErrorCause) :
    (s.setError e).errCode = if s.err then s.errCode else e.code := by
  unfold State.setError; split <;> rfl
@[simp] theorem setError_commands (s : State) (e : ErrorCause) : (s.setError e).commands = s.commands := by
  unfold State.setError; split <;> rfl
@[simp] theorem setError_responses (s : State) (e : ErrorCause) : (s.setError e).responses = s.responses := by
  unfold State.setError; split <;> rfl
@[simp] theorem setError_faultLog (s : State) (e : ErrorCause) : (s.setError e).faultLog = s.faultLog := by
  unfold State.setError; split <;> rfl

@[simp] theorem raise_h (e : ErrorCause) (s : State) :
    (raise e s).h = s.h := by
  simp [raise]
@[simp] theorem raise_buf (e : ErrorCause) (s : State) :
    (raise e s).buf = s.buf := by
  simp [raise]
@[simp] theorem raise_cnt (e : ErrorCause) (s : State) :
    (raise e s).cnt = s.cnt := by
  simp [raise]
@[simp] theorem raise_pos (e : ErrorCause) (s : State) :
    (raise e s).pos = s.pos := by
  simp [raise]
@[simp] theorem raise_err (e : ErrorCause) (s : State) :
    (raise e s).err = true := by
  simp [raise]
@[simp] theorem raise_errCode (e : ErrorCause) (s : State) :
    (raise e s).errCode = if s.err then s.errCode else e.code := by
  simp [raise]
@[simp] theorem raise_commands (e : ErrorCause) (s : State) :
    (raise e s).commands = s.commands := by
  simp [raise]
@[simp] theorem raise_responses (e : ErrorCause) (s : State) :
    (raise e s).responses = s.responses ++ [.error e.status] := by
  simp [raise]
@[simp] theorem raise_faultLog (e : ErrorCause) (s : State) :
    (raise e s).faultLog = s.faultLog ++ [e.status] := by
  simp [raise, Response.faults]

/-! ### Responses -/

@[simp] theorem faults_ok (p : List Byte) : (Response.ok p).faults = [] := rfl
@[simp] theorem faults_error (e : ErrorStatus) : (Response.error e).faults = [e] := rfl
@[simp] theorem status_ok (p : List Byte) : (Response.ok p).status = 0x00 := rfl
@[simp] theorem status_error (e : ErrorStatus) : (Response.error e).status = e.code := rfl

end Sys2Proof.Machine
end

