-- ==== Sys2Proof/Laws/Commands.lean ====
section
/-!
SUPPORT. What each shared operation and each command answers, said once: the equations of
appendByte, finalBlock and the commands by case, and the inversions of exec and step ("if it answers
next t, then one of these cases holds").
-/

namespace Sys2Proof.Machine

/-! ### Shared operations -/

theorem unlessErrorPending_err {s : State} (h : s.err = true) (k : State → Result) :
    unlessErrorPending s k = .next (respond (.error .errorPending) s) := by
  simp [unlessErrorPending, h]

theorem unlessErrorPending_clear {s : State} (h : s.err = false) (k : State → Result) :
    unlessErrorPending s k = k s := by
  simp [unlessErrorPending, h]

/-- The state with one more byte in the buffer. -/
theorem appendByte_room {s : State} (h : s.cnt.toNat < 64) (b : Byte) :
    appendByte b s =
      .next (respond (.ok []) { s with buf := s.buf.write s.cnt.toNat b, cnt := s.cnt + 1 }) := by
  simp [appendByte, memWrite_one h]

theorem appendByte_out {s : State} (h : 64 ≤ s.cnt.toNat) (b : Byte) :
    appendByte b s = .fault .bufferRange := by
  simp [appendByte, memWrite_one_out h]

/-- DIGEST's block is the valid bytes, then zeros, whatever the buffer holds from `CNT` on. -/
theorem finalBlock_eq {s : State} (h : s.cnt.toNat ≤ 64) :
    finalBlock s =
      some (Vector.ofFn fun j : Fin 64 => if j.val < s.cnt.toNat then s.buf.read j.val else 0x00) := by
  simp only [finalBlock, memRead_zero h, padBlock, Option.some.injEq]
  congr 1
  funext j
  simp only [List.getD_eq_getElem?_getD, List.getElem?_map]
  by_cases hj : j.val < s.cnt.toNat <;> simp [hj]

theorem finalBlock_out {s : State} (h : 64 < s.cnt.toNat) : finalBlock s = none := by
  simp [finalBlock, memRead_out h]

theorem cnt_eq_64 {c : BitVec 7} : c = 64 ↔ c.toNat = 64 := by
  constructor
  · rintro rfl; rfl
  · intro h; exact BitVec.eq_of_toNat_eq h

theorem positionLimit_eq : Config.positionLimit = 2 ^ 96 := by norm_num

theorem positionFits_iff {p : Nat} : positionFits p = true ↔ p < 2 ^ 96 := by
  rw [← positionLimit_eq, positionFits, decide_eq_true_eq]

/-! ### UPDATE_BYTE and DIGEST by case -/

theorem execUpdateByte_room {s : State} (he : s.err = false) (hc : s.cnt.toNat < 64)
    (b : BitVec 8) :
    execUpdateByte b s =
      .next (respond (.ok []) { s with buf := s.buf.write s.cnt.toNat b, cnt := s.cnt + 1 }) := by
  have : s.cnt ≠ 64 := fun h => by rw [cnt_eq_64] at h; omega
  rw [execUpdateByte, unlessErrorPending_clear he, if_neg this, appendByte_room hc]
  rfl

theorem execUpdateByte_commit {s : State} (he : s.err = false) (hc : s.cnt.toNat = 64)
    (hp : s.pos.toNat + 64 < 2 ^ 96) (b : BitVec 8) :
    execUpdateByte b s =
      .next (respond (.ok [])
        { commitBlock (s.pos.toNat + 64) s with buf := Memory.clear.write 0 b, cnt := 1 }) := by
  rw [execUpdateByte, unlessErrorPending_clear he, if_pos (cnt_eq_64.2 hc),
    if_pos (positionFits_iff.2 hp), appendByte_room (by simp)]
  rfl

theorem execUpdateByte_overflow {s : State} (he : s.err = false) (hc : s.cnt.toNat = 64)
    (hp : 2 ^ 96 ≤ s.pos.toNat + 64) (b : BitVec 8) :
    execUpdateByte b s = .next (raise .positionOverflow s) := by
  have : ¬ positionFits (s.pos.toNat + Config.blockLen) = true := by
    rw [positionFits_iff]; exact Nat.not_lt.2 hp
  rw [execUpdateByte, unlessErrorPending_clear he, if_pos (cnt_eq_64.2 hc), if_neg this]

theorem execUpdateByte_out {s : State} (he : s.err = false) (hc : 64 < s.cnt.toNat)
    (b : BitVec 8) : execUpdateByte b s = .fault .bufferRange := by
  have : s.cnt ≠ 64 := fun h => by rw [cnt_eq_64] at h; omega
  rw [execUpdateByte, unlessErrorPending_clear he, if_neg this, appendByte_out (by omega)]

/-- DIGEST's final block as R183 writes it. -/
def digestBlock (s : State) : Block :=
  Vector.ofFn fun j : Fin 64 => if j.val < s.cnt.toNat then s.buf.read j.val else 0x00

/-- Sending a response does not change the digest. -/
theorem digestBytes_respond (r : Response) (s : State) :
    digestBytes (respond r s) (digestBlock (respond r s)) (respond r s).absorbed =
      digestBytes s (digestBlock s) s.absorbed := by
  have hb : digestBlock (respond r s) = digestBlock s := rfl
  have ha : (respond r s).absorbed = s.absorbed := rfl
  have hf : (respond r s).first = s.first := rfl
  rw [hb, ha]
  unfold digestBytes
  rw [hf, respond_h]

theorem execDigest_answer {s : State} (he : s.err = false) (hc : s.cnt.toNat ≤ 64)
    (hp : s.absorbed < 2 ^ 96) :
    execDigest s = .next (respond (.ok (digestBytes s (digestBlock s) s.absorbed)) s) := by
  rw [execDigest, unlessErrorPending_clear he, if_pos (positionFits_iff.2 hp), finalBlock_eq hc]
  rfl

theorem execDigest_overflow {s : State} (he : s.err = false) (hp : 2 ^ 96 ≤ s.absorbed) :
    execDigest s = .next (raise .positionOverflow s) := by
  have : ¬ positionFits s.absorbed = true := by rw [positionFits_iff]; omega
  rw [execDigest, unlessErrorPending_clear he, if_neg this]

theorem execDigest_out {s : State} (he : s.err = false) (hc : 64 < s.cnt.toNat)
    (hp : s.absorbed < 2 ^ 96) : execDigest s = .fault .bufferRange := by
  rw [execDigest, unlessErrorPending_clear he, if_pos (positionFits_iff.2 hp), finalBlock_out hc]

/-! ### Inversion -/

/-- Everything a command can answer with a next state. -/
theorem exec_cases {i : Instr} {s t : State} (h : exec i s = .next t) :
    (i = .reset ∧ t = respond (.ok []) (resetRegisters s)) ∨
    (i ≠ .reset ∧ s.err = true ∧ t = respond (.error .errorPending) s) ∨
    (∃ b, i = .updateByte b ∧ s.err = false ∧ s.cnt.toNat < 64 ∧
      t = respond (.ok []) { s with buf := s.buf.write s.cnt.toNat b, cnt := s.cnt + 1 }) ∨
    (∃ b, i = .updateByte b ∧ s.err = false ∧ s.cnt.toNat = 64 ∧ s.pos.toNat + 64 < 2 ^ 96 ∧
      t = respond (.ok [])
        { commitBlock (s.pos.toNat + 64) s with buf := Memory.clear.write 0 b, cnt := 1 }) ∨
    (∃ b, i = .updateByte b ∧ s.err = false ∧ s.cnt.toNat = 64 ∧ 2 ^ 96 ≤ s.pos.toNat + 64 ∧
      t = raise .positionOverflow s) ∨
    (i = .digest ∧ s.err = false ∧ s.cnt.toNat ≤ 64 ∧ s.absorbed < 2 ^ 96 ∧
      t = respond (.ok (digestBytes s (digestBlock s) s.absorbed)) s) ∨
    (i = .digest ∧ s.err = false ∧ 2 ^ 96 ≤ s.absorbed ∧ t = raise .positionOverflow s) ∨
    ((i = .getBlockLength ∨ i = .getOutputLength) ∧ s.err = false ∧
      t = respond (.ok [0x40]) s) := by
  by_cases hr : i = .reset
  · subst hr; cases h; exact .inl ⟨rfl, rfl⟩
  right
  cases he : s.err with
  | true =>
    left
    refine ⟨hr, rfl, ?_⟩
    have hp : exec i s = .next (respond (.error .errorPending) s) := by
      cases i with
      | reset => exact absurd rfl hr
      | updateByte b => rw [exec, execUpdateByte, unlessErrorPending_err he]
      | digest => rw [exec, execDigest, unlessErrorPending_err he]
      | getBlockLength => rw [exec, execGetBlockLength, unlessErrorPending_err he]
      | getOutputLength => rw [exec, execGetOutputLength, unlessErrorPending_err he]
    rw [hp] at h
    cases h; rfl
  | false =>
    right
    cases i with
    | reset => exact absurd rfl hr
    | updateByte b =>
      have h : execUpdateByte b s = .next t := h
      rcases Nat.lt_trichotomy s.cnt.toNat 64 with hc | hc | hc
      · rw [execUpdateByte_room he hc] at h
        cases h; exact .inl ⟨b, rfl, rfl, hc, by rw [he]⟩
      · by_cases hp : s.pos.toNat + 64 < 2 ^ 96
        · rw [execUpdateByte_commit he hc hp] at h
          cases h; exact .inr (.inl ⟨b, rfl, rfl, hc, hp, rfl⟩)
        · rw [execUpdateByte_overflow he hc (Nat.not_lt.1 hp)] at h
          cases h; exact .inr (.inr (.inl ⟨b, rfl, rfl, hc, Nat.not_lt.1 hp, rfl⟩))
      · rw [execUpdateByte_out he hc] at h; cases h
    | digest =>
      have h : execDigest s = .next t := h
      right; right; right
      by_cases hp : s.absorbed < 2 ^ 96
      · by_cases hc : s.cnt.toNat ≤ 64
        · rw [execDigest_answer he hc hp] at h
          cases h; exact .inl ⟨rfl, rfl, hc, hp, rfl⟩
        · rw [execDigest_out he (by omega) hp] at h; cases h
      · rw [execDigest_overflow he (Nat.not_lt.1 hp)] at h
        cases h; exact .inr (.inl ⟨rfl, rfl, Nat.not_lt.1 hp, rfl⟩)
    | getBlockLength =>
      have h : execGetBlockLength s = .next t := h
      rw [execGetBlockLength, unlessErrorPending_clear he] at h
      cases h; exact .inr (.inr (.inr (.inr (.inr ⟨.inl rfl, rfl, rfl⟩))))
    | getOutputLength =>
      have h : execGetOutputLength s = .next t := h
      rw [execGetOutputLength, unlessErrorPending_clear he] at h
      cases h; exact .inr (.inr (.inr (.inr (.inr ⟨.inr rfl, rfl, rfl⟩))))

/-- With no command word sent a step changes nothing. -/
theorem step_idle {s : State} (h : s.commands = []) : step s = .next s := by
  simp [step, acceptCommand, h]

/-- A step on an accepted word. -/
theorem step_accept {s : State} {w : CmdWord} {ws : List CmdWord} (h : s.commands = w :: ws) :
    step s = match decode w with
      | .ok i => exec i { s with commands := ws }
      | .error _ => execIllegal { s with commands := ws } := by
  cases hd : decode w <;> simp [step, acceptCommand, h, hd]

/-- Everything a step can do with a next state: idle, an illegal word, or a decoded command. -/
theorem step_cases {s t : State} (h : step s = .next t) :
    (s.commands = [] ∧ t = s) ∨
    (∃ w ws e, s.commands = w :: ws ∧ decode w = .error e ∧
      t = raise .illegalCommand { s with commands := ws }) ∨
    (∃ w ws i, s.commands = w :: ws ∧ decode w = .ok i ∧
      exec i { s with commands := ws } = .next t) := by
  cases hc : s.commands with
  | nil => rw [step_idle hc] at h; cases h; exact .inl ⟨rfl, rfl⟩
  | cons w ws =>
    rw [step_accept hc] at h
    right
    cases hd : decode w with
    | error e => rw [hd] at h; cases h; exact .inl ⟨w, ws, e, rfl, hd, rfl⟩
    | ok i => rw [hd] at h; exact .inr ⟨w, ws, i, rfl, hd, h⟩

end Sys2Proof.Machine
end

