-- ==== Sys2Proof/Laws/Datapath.lean ====
section
/-!
SUPPORT. Small laws of the datapath (41_word_primitives.md, 43_ubi.md): words are equal when their
bytes are, and the message pass read block by block.
-/

namespace Sys2Proof.Machine

/-- Two words with the same eight bytes are equal. -/
theorem word_ext {v w : Word}
    (h : ∀ k : Fin 8, v.extractLsb' (8 * k.val) 8 = w.extractLsb' (8 * k.val) 8) : v = w := by
  apply BitVec.eq_of_getLsbD_eq
  intro i hi
  have := congrArg (fun x : Byte => x.getLsbD (i % 8)) (h ⟨i / 8, by omega⟩)
  simpa [show i % 8 < 8 by omega, show 8 * (i / 8) + i % 8 = i by omega] using this

/-- The blocks of a message before its last one are whole, so the message pass compresses them as
`chainAfter` does. -/
theorem foldl_messageStep (m : List Byte) (g : Words) (nb q : Nat) (hq : q < nb)
    (hm : 64 * (nb - 1) ≤ m.length) :
    (List.range q).foldl (messageStep m nb) g = chainAfter g m q := by
  induction q with
  | zero => rfl
  | succ q ih =>
    rw [List.range_succ, List.foldl_append, ih (by omega)]
    simp only [List.foldl_cons, List.foldl_nil, messageStep, chainAfter]
    have hp : 64 * q + messageBlockLength m.length q = 64 * (q + 1) := by
      unfold messageBlockLength; omega
    have hl : (q == nb - 1) = false := by simp; omega
    rw [hp, hl]

/-- Whole blocks do not change when a message is extended. -/
theorem chainAfter_append (g : Words) (m y : List Byte) (q : Nat) (hq : 64 * q ≤ m.length) :
    chainAfter g (m ++ y) q = chainAfter g m q := by
  induction q with
  | zero => rfl
  | succ q ih =>
    have hb : messageBlock (m ++ y) q = messageBlock m q := by
      unfold messageBlock messageBlockLength
      rw [List.drop_append_of_le_length (by omega),
        List.take_append_of_le_length (by simp; omega),
        show min 64 ((m ++ y).length - 64 * q) = min 64 (m.length - 64 * q) by simp; omega]
    simp only [chainAfter]
    rw [ih (by omega), hb]

end Sys2Proof.Machine
end

