-- ==== Sys2Proof/Laws/Decode.lean ====
section
/-!
SUPPORT. The laws of the decoder: its value as one chain over the opcode map, and that no word
matches two rows of the table.
-/

namespace Sys2Proof

/-- The decoder as one chain over the rows of R61. -/
theorem decode_eq (w : CmdWord) :
    decode w =
      if w = 0x1000 then .ok .reset
      else if w &&& 0xFF00 = 0x2000 then .ok (.updateByte w.imm8)
      else if w = 0x3000 then .ok .digest
      else if w = 0x4000 then .ok .getBlockLength
      else if w = 0x5000 then .ok .getOutputLength
      else .error (illegalReason w) := by
  have all : ∀ v : CmdWord, v &&& 0xFFFF#16 = v := fun v => BitVec.and_allOnes
  by_cases h1 : w = 0x1000#16
  · subst h1; rfl
  by_cases h2 : w &&& 0xFF00#16 = 0x2000#16
  · simp [decode, opcodeTable, OpcodeRow.hits, all, h1, h2]
  by_cases h3 : w = 0x3000#16
  · subst h3; rfl
  by_cases h4 : w = 0x4000#16
  · subst h4; rfl
  by_cases h5 : w = 0x5000#16
  · subst h5; rfl
  simp [decode, opcodeTable, OpcodeRow.hits, all, h1, h2, h3, h4, h5]

/-- The mask test of the UPDATE_BYTE row asks for the high octet `0x20`. -/
theorem updateByte_row_iff (w : CmdWord) :
    w &&& 0xFF00 = 0x2000 ↔ w.extractLsb' 8 8 = 0x20 := by
  constructor
  · intro h
    have := congrArg (fun v : CmdWord => v.extractLsb' 8 8) h
    have all : ∀ v : BitVec 8, v &&& 0xFF#8 = v := fun v => BitVec.and_allOnes
    simpa [BitVec.extractLsb'_and, all] using this
  · intro h
    apply BitVec.eq_of_getLsbD_eq
    intro i hi
    have hb : ∀ j, j < 8 → w.getLsbD (8 + j) = (0x20 : BitVec 8).getLsbD j := by
      intro j hj
      have := congrArg (fun v : BitVec 8 => v.getLsbD j) h
      simpa [hj] using this
    by_cases h8 : i < 8
    · have : ∀ k : Fin 8, (0xFF00 : CmdWord).getLsbD k.val = false ∧ (0x2000 : CmdWord).getLsbD k.val = false := by
        decide
      have := this ⟨i, h8⟩
      simp only [BitVec.getLsbD_and, this.1, this.2, Bool.and_false]
    · have hk := hb (i - 8) (by omega)
      rw [show 8 + (i - 8) = i by omega] at hk
      have : ∀ k : Fin 8, (0xFF00 : CmdWord).getLsbD (8 + k.val) = true ∧
          (0x2000 : CmdWord).getLsbD (8 + k.val) = (0x20 : BitVec 8).getLsbD k.val := by decide
      have := this ⟨i - 8, by omega⟩
      simp only [show 8 + (i - 8) = i by omega] at this
      rw [BitVec.getLsbD_and, this.1, this.2, hk, Bool.and_true]

/-- No word matches two rows of the opcode table: where two masks overlap, their patterns differ. -/
theorem opcodeTable_unambiguous :
    opcodeTable.Pairwise fun r r' => r.pattern &&& r'.mask ≠ r'.pattern &&& r.mask := by
  decide

end Sys2Proof
end

