-- ==== Sys2Proof/Laws/PerInstr.lean ====
section
/-!
SUPPORT. The per-instruction family EncodedLegal: the encoding of every command is a legal word, by
the three checks of 30_encoding.md R62.
-/

namespace Sys2Proof.Laws.EncodedLegal

/-- The encoding of a command is legal, and the command itself is well-formed. -/
def Statement (i : Instr) : Prop := (encode i).legal = true ∧ i.wellFormed = true

theorem reset : Statement .reset := by unfold Statement; decide

theorem updateByte (imm8 : BitVec 8) : Statement (.updateByte imm8) := by
  constructor
  · revert imm8; decide
  · simp [Instr.wellFormed, imm8.isLt]

theorem digest : Statement .digest := by unfold Statement; decide

theorem getBlockLength : Statement .getBlockLength := by unfold Statement; decide

theorem getOutputLength : Statement .getOutputLength := by unfold Statement; decide

end Sys2Proof.Laws.EncodedLegal
end

