-- ==== Sys2Proof/Laws/Runs.lean ====
section
/-!
SUPPORT. Runs of command words: what one word does whatever else is on the channel, and runs of words
one after another (70_reset_and_hazards.md R257); commands neither read nor drop what the channels hold.
-/

namespace Sys2Proof.Machine

/-- A function of the next state, under an outcome. -/
def mapNext (f : State → State) : Result → Result
  | .next s => .next (f s)
  | .fault r => .fault r
  | .refused r => .refused r

/-- The rest of a run after an outcome. -/
def thenRun (ws : List CmdWord) : Result → Result
  | .next s => runWords ws s
  | .fault r => .fault r
  | .refused r => .refused r

/-- The meaning of an accepted word: R180 without the channel. -/
def execWord (w : CmdWord) (s : State) : Result :=
  match decode w with
  | .ok i => exec i s
  | .error _ => execIllegal s

/-- The state with other words on the command channel. -/
def withCommands (ws : List CmdWord) (s : State) : State := { s with commands := ws }

/-- The state with earlier responses and fault log entries before its own. -/
def withPast (rs : List Response) (es : List ErrorStatus) (s : State) : State :=
  { s with responses := rs ++ s.responses, faultLog := es ++ s.faultLog }

/-! ### Commands do not touch the words waiting on the channel -/

theorem raise_withCommands (e : ErrorCause) (ws : List CmdWord) (s : State) :
    raise e (withCommands ws s) = withCommands ws (raise e s) := by
  have h : (withCommands ws s).err = s.err := rfl
  simp only [raise, State.setError, h]
  split <;> rfl

theorem appendByte_withCommands (b : Byte) (ws : List CmdWord) (s : State) :
    appendByte b (withCommands ws s) = mapNext (withCommands ws) (appendByte b s) := by
  unfold appendByte
  show (match memWrite s.buf s.cnt.toNat [b] with | some m => _ | none => _) = _
  cases memWrite s.buf s.cnt.toNat [b] <;> rfl

theorem exec_withCommands (i : Instr) (ws : List CmdWord) (s : State) :
    exec i (withCommands ws s) = mapNext (withCommands ws) (exec i s) := by
  have he : (withCommands ws s).err = s.err := rfl
  cases i with
  | reset => rfl
  | updateByte b =>
    have hc : (withCommands ws s).cnt = s.cnt := rfl
    have hp : (withCommands ws s).pos = s.pos := rfl
    simp only [exec, execUpdateByte, unlessErrorPending, he, hc, hp]
    split; · rfl
    split
    · split
      · exact appendByte_withCommands b ws (commitBlock _ s)
      · simp only [mapNext, raise_withCommands]
    · exact appendByte_withCommands b ws s
  | digest =>
    have hf : finalBlock (withCommands ws s) = finalBlock s := rfl
    have ha : (withCommands ws s).absorbed = s.absorbed := rfl
    simp only [exec, execDigest, unlessErrorPending, he, hf, ha]
    split; · rfl
    split
    · cases finalBlock s <;> rfl
    · simp only [mapNext, raise_withCommands]
  | getBlockLength => simp only [exec, execGetBlockLength, unlessErrorPending, he]; split <;> rfl
  | getOutputLength => simp only [exec, execGetOutputLength, unlessErrorPending, he]; split <;> rfl

theorem execWord_withCommands (w : CmdWord) (ws : List CmdWord) (s : State) :
    execWord w (withCommands ws s) = mapNext (withCommands ws) (execWord w s) := by
  unfold execWord
  cases decode w with
  | ok i => exact exec_withCommands i ws s
  | error e => simp only [execIllegal, mapNext, raise_withCommands]

/-! ### Commands only add to the responses and the fault log -/

theorem respond_withPast (r : Response) (rs : List Response) (es : List ErrorStatus) (s : State) :
    respond r (withPast rs es s) = withPast rs es (respond r s) := by
  simp [respond, withPast]

theorem raise_withPast (e : ErrorCause) (rs : List Response) (es : List ErrorStatus) (s : State) :
    raise e (withPast rs es s) = withPast rs es (raise e s) := by
  have h : (withPast rs es s).err = s.err := rfl
  simp only [raise, ← respond_withPast, State.setError, h]
  split <;> rfl

theorem appendByte_withPast (b : Byte) (rs : List Response) (es : List ErrorStatus) (s : State) :
    appendByte b (withPast rs es s) = mapNext (withPast rs es) (appendByte b s) := by
  unfold appendByte
  show (match memWrite s.buf s.cnt.toNat [b] with | some m => _ | none => _) = _
  cases memWrite s.buf s.cnt.toNat [b] with
  | none => rfl
  | some m => simp only [mapNext, ← respond_withPast]; rfl

theorem exec_withPast (i : Instr) (rs : List Response) (es : List ErrorStatus) (s : State) :
    exec i (withPast rs es s) = mapNext (withPast rs es) (exec i s) := by
  have he : (withPast rs es s).err = s.err := rfl
  cases i with
  | reset => simp only [exec, execReset, mapNext, ← respond_withPast]; rfl
  | updateByte b =>
    have hc : (withPast rs es s).cnt = s.cnt := rfl
    have hp : (withPast rs es s).pos = s.pos := rfl
    simp only [exec, execUpdateByte, unlessErrorPending, he, hc, hp]
    split; · simp only [mapNext, respond_withPast]
    split
    · split
      · exact appendByte_withPast b rs es (commitBlock _ s)
      · simp only [mapNext, raise_withPast]
    · exact appendByte_withPast b rs es s
  | digest =>
    have hf : finalBlock (withPast rs es s) = finalBlock s := rfl
    have ha : (withPast rs es s).absorbed = s.absorbed := rfl
    have hd : ∀ b p, digestBytes (withPast rs es s) b p = digestBytes s b p := fun _ _ => rfl
    simp only [exec, execDigest, unlessErrorPending, he, hf, ha]
    split; · simp only [mapNext, respond_withPast]
    split
    · cases finalBlock s with
      | none => rfl
      | some b => simp only [mapNext, hd, respond_withPast]
    · simp only [mapNext, raise_withPast]
  | getBlockLength =>
    simp only [exec, execGetBlockLength, unlessErrorPending, he]
    split <;> simp only [mapNext, respond_withPast]
  | getOutputLength =>
    simp only [exec, execGetOutputLength, unlessErrorPending, he]
    split <;> simp only [mapNext, respond_withPast]

theorem execWord_withPast (w : CmdWord) (rs : List Response) (es : List ErrorStatus) (s : State) :
    execWord w (withPast rs es s) = mapNext (withPast rs es) (execWord w s) := by
  unfold execWord
  cases decode w with
  | ok i => exact exec_withPast i rs es s
  | error e => simp only [execIllegal, mapNext, raise_withPast]

/-! ### Runs -/

theorem runWords_nil (s : State) : runWords [] s = .next (withCommands [] s) := rfl

/-- A run starts with its own words, whatever was on the channel. -/
theorem runWords_withCommands (ws cs : List CmdWord) (s : State) :
    runWords ws (withCommands cs s) = runWords ws s := rfl

/-- A run of a first word and more is that word's meaning, then the run of the rest. -/
theorem runWords_cons (w : CmdWord) (ws : List CmdWord) (s : State) :
    runWords (w :: ws) s = thenRun ws (execWord w s) := by
  have h : step (withCommands (w :: ws) s) = mapNext (withCommands ws) (execWord w s) := by
    rw [step_accept (w := w) (ws := ws) rfl, ← execWord_withCommands]; rfl
  show runSteps (ws.length + 1) (withCommands (w :: ws) s) = _
  rw [runSteps, h]
  cases execWord w s <;> rfl

/-- Two runs one after the other are one run. -/
theorem runWords_append (xs ys : List CmdWord) (s : State) :
    runWords (xs ++ ys) s = thenRun ys (runWords xs s) := by
  induction xs generalizing s with
  | nil => rfl
  | cons w ws ih =>
    rw [List.cons_append, runWords_cons, runWords_cons]
    cases execWord w s with
    | next t => exact ih t
    | fault => rfl
    | refused => rfl

/-- A run does not depend on what was answered before it. -/
theorem runWords_withPast (ws : List CmdWord) (rs : List Response) (es : List ErrorStatus)
    (s : State) : runWords ws (withPast rs es s) = mapNext (withPast rs es) (runWords ws s) := by
  induction ws generalizing s with
  | nil => rfl
  | cons w ws ih =>
    rw [runWords_cons, runWords_cons, execWord_withPast]
    cases execWord w s with
    | next t => exact ih t
    | fault => rfl
    | refused => rfl

end Sys2Proof.Machine
end

