-- ==== Sys2Proof/Tests/Slice0.lean ====
section
/-!
SUPPORT. The model's own tests. Expected values come from spec/: the encodings of 30_encoding.md and the
vectors of 95_test_vectors.md (named in each comment). Then one witness per statement with hypotheses.
-/

namespace Sys2Proof.Tests

open Sys2Proof.Machine

/-! ### Well-formedness: an ill-formed word for each check of R62 -/

theorem test_illFormed_opcode_zero : CmdWord.opcodeAssigned 0x0000 = false := by decide
theorem test_illFormed_opcode_six : CmdWord.opcodeAssigned 0x6000 = false := by decide
theorem test_illFormed_reserved : CmdWord.reservedClear 0x2100 = false := by decide
theorem test_illFormed_immediate : CmdWord.immediateAllowed 0x3001 = false := by decide
theorem test_wellFormed_updateByte : CmdWord.legal 0x20FF = true := by decide

/-! ### Decoding: words written out from the fields `OP RSV IMM8` of R60 and the map of R61 -/

theorem test_decode_reset : decode 0b0001000000000000 = .ok .reset := by decide
theorem test_decode_updateByte : decode 0b0010000010100101 = .ok (.updateByte 0xA5) := by decide
theorem test_decode_digest : decode 0b0011000000000000 = .ok .digest := by decide
theorem test_decode_getBlockLength : decode 0b0100000000000000 = .ok .getBlockLength := by decide
theorem test_decode_getOutputLength : decode 0b0101000000000000 = .ok .getOutputLength := by decide
/-- V-E1, V-E6. -/
theorem test_decode_unassigned :
    decode 0x0000 = .error .unassignedOpcode ∧ decode 0xA5A5 = .error .unassignedOpcode := by decide
/-- V-E3, V-E4. -/
theorem test_decode_reserved :
    decode 0x1100 = .error .reservedNonzero ∧ decode 0x2100 = .error .reservedNonzero := by decide
/-- V-E2, V-E5. -/
theorem test_decode_immediate :
    decode 0x1001 = .error .immediateNonzero ∧ decode 0x50FF = .error .immediateNonzero := by decide
theorem test_decodeTableWord :
    decodeTableWord 16 0x2037 = some (.updateByte 0x37) ∧ decodeTableWord 16 0x2137 = none := by decide

/-! ### The datapath -/

/-- V-W2, V-W3: no sign extension; little-endian. -/
theorem test_load_store :
    load64le (#v[0xFF, 0xFF, 0xFF, 0xFF, 0xFF, 0xFF, 0xFF, 0x80] : Vector Byte 8) 0 =
        0x80FFFFFFFFFFFFFF ∧
      store64le 0x0123456789ABCDEF = #v[0xEF, 0xCD, 0xAB, 0x89, 0x67, 0x45, 0x23, 0x01] := by
  decide

/-- V-W11. -/
theorem test_rotL64 : rotL64 0x0123456789ABCDEF 56 = 0xEF0123456789ABCD := by decide

/-- V-T4e: subkey 8 of K = [1..8], T = [0x10, 0x20]. -/
theorem test_subkey :
    subkey (extendKey #v[1, 2, 3, 4, 5, 6, 7, 8]) (extendTweak #v[0x10, 0x20]) 8 =
      #v[0x1BD11BDAA9FC1A2A, 1, 2, 3, 4, 0x35, 0x16, 0xF] := by decide

/-- V-T11: round 7 of [0..7]. -/
theorem test_round :
    cipherRound #v[0, 1, 2, 3, 4, 5, 6, 7] 7 =
      #v[0x5, 0x101, 0x9, 0x1C0000D, 0xD, 0x0500000000000009, 0x1, 0x1800000005] := by decide

/-- TF-2: Threefish-512 with a nonzero key, tweak and plaintext. -/
theorem test_threefish :
    threefish512Encrypt
        #v[0x1716151413121110, 0x1F1E1D1C1B1A1918, 0x2726252423222120, 0x2F2E2D2C2B2A2928,
           0x3736353433323130, 0x3F3E3D3C3B3A3938, 0x4746454443424140, 0x4F4E4D4C4B4A4948]
        #v[0x0706050403020100, 0x0F0E0D0C0B0A0908]
        #v[0xF8F9FAFBFCFDFEFF, 0xF0F1F2F3F4F5F6F7, 0xE8E9EAEBECEDEEEF, 0xE0E1E2E3E4E5E6E7,
           0xD8D9DADBDCDDDEDF, 0xD0D1D2D3D4D5D6D7, 0xC8C9CACBCCCDCECF, 0xC0C1C2C3C4C5C6C7] =
      #v[0x2C5AD426964304E3, 0x9A2436D6D8CA01B4, 0xDD456DB00E333863, 0x794725970EB9368B,
         0x043546998D0A2A27, 0x25A7C918EA204478, 0x346201A1FEDF11AF, 0x3DAF1C5C3D672789] := by
  decide +kernel

/-- V-U1 and V-U4b, the largest position. -/
theorem test_makeTweak :
    makeTweak 32 .cfg true true = #v[0x20, 0xC400000000000000] ∧
      makeTweak 0xFFFFFFFFFFFFFFFFFFFFFFFF .msg false true =
        #v[0xFFFFFFFFFFFFFFFF, 0xB0000000FFFFFFFF] := by decide

/-! ### Small states -/

/-- The octets of the last response of an outcome. -/
def lastOctets : Result → Option (List Byte)
  | .next t => t.responses.getLast?.map Response.octets
  | _ => none

/-- A test of the next state, false where there is none. -/
def nextHas (p : State → Bool) : Result → Bool
  | .next t => p t
  | _ => false

/-- 64 bytes `00 01 .. 3F` absorbed, none compressed (V-C6). -/
def heldBlock : State :=
  { State.reset with buf := (List.range 63).map fun j => (j + 1, BitVec.ofNat 8 (j + 1)), cnt := 64 }

/-- V-E12's start state: `POS = 2^96 - 64`, `CNT = 64`. -/
def brink : State := { State.reset with cnt := 64, pos := 0xFFFFFFFFFFFFFFFFFFFFFFC0 }

/-- V-E8's start state. -/
def pendingError : State := { State.reset with err := true, errCode := 0x01 }

/-! ### The commands -/

/-- V-E11: RESET in the error state gives the reset state and `00`. -/
theorem test_reset_after_error :
    nextHas (fun t => t.err = false && t.errCode = 0 && t.h = iv) (exec .reset pendingError) = true ∧
      lastOctets (exec .reset pendingError) = some [0x00] := by decide

/-- V-C4. -/
theorem test_updateByte_first :
    nextHas (fun t => t.cnt = 1 && t.buf = [(0, 0x61)] && t.pos = 0 && t.h = iv)
      (exec (.updateByte 0x61) State.reset) = true := by decide

/-- V-C7: the 65th byte compresses the held block. -/
theorem test_updateByte_compresses :
    nextHas (fun t => t.pos = 64 && t.cnt = 1 && t.buf = [(0, 0x40)] &&
        t.h = #v[0x5CAB069E40C52788, 0x7E9C65D5E43F3324, 0x4C512DE3EEBFBE45, 0x746FFB9D4BD079EE,
                 0x93A9A4D90177903E, 0x17D7C8FA1E2260B6, 0xC02A91D0F91B564F, 0x192F4DF19098117F])
      (exec (.updateByte 0x40) heldBlock) = true := by decide +kernel

/-- V-C5 and V-EMPTY: the digest of the empty message. -/
theorem test_digest_empty :
    lastOctets (exec .digest State.reset) = some
      [0x00, 0xbc, 0x5b, 0x4c, 0x50, 0x92, 0x55, 0x19, 0xc2, 0x90, 0xcc, 0x63, 0x42, 0x77, 0xae, 0x3d,
       0x62, 0x57, 0x21, 0x23, 0x95, 0xcb, 0xa7, 0x33, 0xbb, 0xad, 0x37, 0xa4, 0xaf, 0x0f, 0xa0, 0x6a,
       0xf4, 0x1f, 0xca, 0x79, 0x03, 0xd0, 0x65, 0x64, 0xfe, 0xa7, 0xa2, 0xd3, 0x73, 0x0d, 0xbd, 0xb8,
       0x0c, 0x1f, 0x85, 0x56, 0x2d, 0xfc, 0xc0, 0x70, 0x33, 0x4e, 0xa4, 0xd1, 0xd9, 0xe7, 0x2c, 0xba,
       0x7a] := by decide +kernel

/-- V-E14: no position for the final block. -/
theorem test_digest_overflow :
    lastOctets (exec .digest brink) = some [0x02] ∧
      nextHas (fun t => t.err && t.errCode = 0x02 && t.cnt = 64) (exec .digest brink) = true := by
  decide

/-- V-C2 and V-E9. -/
theorem test_getBlockLength :
    lastOctets (exec .getBlockLength State.reset) = some [0x00, 0x40] ∧
      lastOctets (exec .getBlockLength pendingError) = some [0x03] := by decide

/-- V-C3 and P4's refused GET_OUTPUT_LENGTH. -/
theorem test_getOutputLength :
    lastOctets (exec .getOutputLength State.reset) = some [0x00, 0x40] ∧
      lastOctets (exec .getOutputLength pendingError) = some [0x03] := by decide

/-- V-E10: an illegal word in the error state keeps the first code and is logged. -/
theorem test_step_illegal :
    nextHas (fun t => t.errCode = 0x01 && t.faultLog = [.illegalCommand])
      (step (pendingError.withFetchWord 16 0x0000)) = true := by decide

/-- R73, R74: text to words. -/
theorem test_assemble :
    assemble "reset ; 0x1000\nUPDATE_BYTE 0x61\nUPDATE 1, 255\nUPDATE \"a;\"\nUPDATE_HEX 00fF\n.CMD 0x3001\nDIGEST_BYTES 7" =
      .ok [0x1000, 0x2061, 0x2001, 0x20FF, 0x2061, 0x203B, 0x2000, 0x20FF, 0x3001, 0x2007, 0x3000] ∧
    assemble "UPDATE_BYTE 256" = .error .operandRange := by decide

/-! ### Witnesses: each statement's hypotheses met by a concrete state and operands -/

/-- The three clauses at their boundaries: `CNT` 0 and 63; 64 with room for the position; 64 without. -/
theorem witness_UpdateByteAbsorbsOneByte :
    State.reset.err = false ∧ State.reset.cnt.toNat < 64 ∧
    ({ State.reset with cnt := 63 } : State).cnt.toNat < 64 ∧
    heldBlock.err = false ∧ heldBlock.cnt.toNat = 64 ∧ heldBlock.pos.toNat + 64 < 2 ^ 96 ∧
    ({ brink with pos := 0xFFFFFFFFFFFFFFFFFFFFFF80 } : State).pos.toNat + 64 < 2 ^ 96 ∧
    brink.err = false ∧ brink.cnt.toNat = 64 ∧ 2 ^ 96 ≤ brink.pos.toNat + 64 := by decide

theorem witness_UpdateByteFrame : ∃ t, exec (.updateByte 0x00) brink = .next t ∧ t.err ≠ brink.err :=
  ⟨_, execUpdateByte_overflow (by decide) (by decide) (by decide) 0x00, by simp; decide⟩

/-- The position clause of the frame: a held block is compressed and `POS` moves. -/
theorem witness_UpdateByteFrame_pos :
    ∃ t, exec (.updateByte 0x00) heldBlock = .next t ∧ t.pos ≠ heldBlock.pos :=
  ⟨_, execUpdateByte_commit (by decide) (by decide) (by decide) 0x00, by decide⟩

theorem witness_UpdateByteCountsOneByte :
    ∃ t, State.reset.cnt.toNat ≤ 64 ∧ exec (.updateByte 0xFF) State.reset = .next t ∧
      t.responses = State.reset.responses ++ [.ok []] :=
  ⟨_, by decide, execUpdateByte_room (by decide) (by decide) 0xFF, rfl⟩

/-- The largest position that fits, and the smallest that does not (V-E13, V-E14). -/
theorem witness_DigestAnswersFinalBlock :
    ({ brink with cnt := 63 } : State).err = false ∧ ({ brink with cnt := 63 } : State).cnt.toNat ≤ 64 ∧
    ({ brink with cnt := 63 } : State).pos.toNat + 63 < 2 ^ 96 ∧
    2 ^ 96 ≤ brink.pos.toNat + brink.cnt.toNat := by decide

/-- Two states that differ in a byte from `CNT` on. -/
theorem witness_DigestIgnoresBytesFromCount :
    let s₁ : State := State.reset
    let s₂ : State := { State.reset with buf := [(5, 0x77)] }
    s₁.cnt = s₂.cnt ∧ s₁.buf.read 5 ≠ s₂.buf.read 5 ∧
    (∀ j, j < s₁.cnt.toNat → s₁.buf.read j = s₂.buf.read j) ∧
    (∃ t₁ r, exec .digest s₁ = .next t₁ ∧ t₁.responses = s₁.responses ++ [r]) ∧
    ∃ t₂, exec .digest s₂ = .next t₂ :=
  ⟨rfl, by decide, fun j hj => absurd hj (Nat.not_lt_zero j),
    ⟨_, _, execDigest_answer rfl (by decide) (by decide), rfl⟩,
    ⟨_, execDigest_answer rfl (by decide) (by decide)⟩⟩

theorem witness_DigestRepeatsSameBytes :
    ∃ t p, exec .digest State.reset = .next t ∧ t.responses = State.reset.responses ++ [.ok p] :=
  ⟨_, _, execDigest_answer rfl (by decide) (by decide), rfl⟩

theorem witness_GetLengthAnswers : State.reset.err = false ∧ pendingError.err = true := by decide

theorem witness_PendingErrorRefusesCommands :
    Instr.digest ≠ .reset ∧ pendingError.err = true := by decide

theorem witness_IllegalWordRaisesIllegalCommand :
    (State.reset.withFetchWord 16 0x2100).commands = [0x2100] ∧
      (0x2100 : CmdWord).extractLsb' 8 4 ≠ 0x0 ∧ (0x0000 : CmdWord).extractLsb' 12 4 = 0x0 ∧
      0x6 ≤ ((0x6000 : CmdWord).extractLsb' 12 4).toNat ∧
      (0x5001 : CmdWord).extractLsb' 0 8 ≠ 0x00 ∧ (0x5001 : CmdWord).extractLsb' 12 4 ≠ 0x2 := by
  decide

/-- Each of the four outcomes: illegal, pending, overflow, OK. -/
theorem witness_StatusPriority :
    (pendingError.withFetchWord 16 0x2100).commands = [0x2100] ∧ pendingError.cnt.toNat ≤ 64 ∧
      (0x2100 : CmdWord).legal = false ∧ (0x3000 : CmdWord).legal = true ∧
      pendingError.err = true ∧ (0x3000 : CmdWord).op ≠ 0x1 ∧
      brink.cnt.toNat ≤ 64 ∧ brink.err = false ∧ 2 ^ 96 ≤ brink.pos.toNat + brink.cnt.toNat ∧
      State.reset.err = false ∧ State.reset.pos.toNat + State.reset.cnt.toNat < 2 ^ 96 := by decide

/-- Both sides of the equivalence: RESET leaves the error state, DIGEST does not. -/
theorem witness_OnlyResetLeavesErrorState :
    pendingError.err = true ∧
      nextHas (fun t => t.err = false) (step (pendingError.withFetchWord 16 0x1000)) = true ∧
      nextHas (fun t => t.err = true) (step (pendingError.withFetchWord 16 0x3000)) = true := by decide

theorem witness_FirstErrorCodeIsKept :
    ∃ t, pendingError.err = true ∧ step (pendingError.withFetchWord 16 0xFFFF) = .next t ∧
      t.err = true := ⟨_, rfl, rfl, rfl⟩

theorem witness_StepRunsDecodedCommand :
    (State.reset.withFetchWord 16 0x4000).commands = [0x4000] ∧
      decode 0x4000 = .ok .getBlockLength ∧ decode 0x0000 = .error .unassignedOpcode := by decide

theorem witness_IdleStepChangesNothing : State.reset.commands = [] := rfl

theorem witness_OneResponsePerCommand :
    (State.reset.withFetchWord 16 0x0000).commands = [0x0000] ∧ State.reset.cnt.toNat ≤ 64 := by decide

theorem witness_PayloadByCommand :
    ∃ t, step (State.reset.withFetchWord 16 0x4000) = .next t ∧
      t.responses = State.reset.responses ++ [.ok [0x40]] ∧ (Response.ok [0x40]).status = 0x00 ∧
      (0x4000 : CmdWord).op = 0x4 := ⟨_, rfl, rfl, rfl, rfl⟩

theorem witness_EveryStepAnswers : heldBlock.cnt.toNat ≤ 64 := by decide

/-- The smallest count that never occurs. -/
theorem witness_BufferRangeStops :
    let s : State := { State.reset with cnt := 65 }
    s.err = false ∧ 64 < s.cnt.toNat ∧ s.pos.toNat + s.cnt.toNat < 2 ^ 96 := by decide

theorem witness_LegalWordsAreTheDecodedOnes :
    (State.reset.withFetchWord 16 0x1001).commands = [0x1001] ∧ (0x1001 : CmdWord).legal = false := by
  decide

/-- The reset state and a state with a held block meet the invariant; a step from one is a next state. -/
theorem witness_StepKeepsInvariant :
    State.reset.Inv ∧ heldBlock.Inv ∧
      ∃ t, step (State.reset.withFetchWord 16 0x2061) = .next t :=
  ⟨⟨by decide, by decide, by decide, fun _ _ _ => rfl, by decide, by decide, rfl⟩,
   ⟨by decide, by decide, by decide, fun j h h' => absurd h' (Nat.not_lt.2 h), by decide, by decide,
    by decide⟩,
   ⟨_, rfl⟩⟩

theorem witness_FaultLogRecordsEveryError :
    ∃ t, State.reset.LogAgrees ∧ step (State.reset.withFetchWord 16 0x0000) = .next t ∧
      t.wentWrong = true := ⟨_, rfl, rfl, rfl⟩

theorem witness_PositionStaysBelowLimit :
    ∃ t, brink.pos.toNat < 2 ^ 96 ∧ step (brink.withFetchWord 16 0x2000) = .next t :=
  ⟨_, by decide, rfl⟩

/-- A step that changes `H`: RESET of a state whose `H` is not `IV`. -/
theorem witness_ChainingValueWriters :
    ∃ t, step ({ State.reset with h := zero8 }.withFetchWord 16 0x1000) = .next t ∧ t.h ≠ zero8 :=
  ⟨_, rfl, by decide⟩

theorem witness_PositionWriters :
    ∃ t, step (brink.withFetchWord 16 0x1000) = .next t ∧ t.pos ≠ brink.pos := ⟨_, rfl, by decide⟩

theorem witness_ReadersWriteNoRegister :
    ∃ t, exec .getOutputLength State.reset = .next t ∧
      t.responses = State.reset.responses ++ [.ok [0x40]] := ⟨_, rfl, rfl⟩

theorem witness_message_lengths :
    ([0x61, 0x62, 0x63] : List Byte).length < 2 ^ 96 ∧
      ([0x61] : List Byte).length + ([0x62] : List Byte).length < 2 ^ 96 ∧
      State.reset.cnt.toNat ≤ 64 := by decide

/-- A DIGEST and a query between two UPDATE_BYTEs. -/
theorem witness_InterleavedReadersChangeNothing :
    .reset ∉ [Instr.updateByte 0x61, .digest, .getBlockLength, .updateByte 0x62] ∧
      ([Instr.updateByte 0x61, .digest, .getBlockLength, .updateByte 0x62].flatMap
        commandBytes).length < 2 ^ 96 := by decide

theorem witness_ChunkingDoesNotMatter : ∃ t, runWords (updateWords [0x61]) State.reset = .next t :=
  ⟨_, rfl⟩

theorem witness_LoadIsLittleEndian : (56 : Nat) + 8 ≤ 64 := by decide

/-- Both ends of the amounts' range. -/
theorem witness_RotateLeftFormula : (1 ≤ 1 ∧ 1 ≤ 63) ∧ (1 ≤ 63 ∧ 63 ≤ 63) := by decide

theorem witness_SubkeyWords : (18 : Nat) ≤ 18 := by decide

theorem witness_TweakFields : 0xFFFFFFFFFFFFFFFFFFFFFFFF < 2 ^ 96 := by decide

/-- One byte; a whole block (`q = 0`); two whole blocks (`q = 1`). -/
theorem witness_MessagePassFinalBlock :
    0 < ([0x00] : List Byte).length ∧ (List.replicate 64 (0x00 : Byte)).length = 64 * (0 + 1) ∧
      (List.replicate 128 (0x00 : Byte)).length = 64 * (1 + 1) := by simp

end Sys2Proof.Tests
end

