-- ==== Sys2Proof/Proofs/StateWriters.lean ====
section
/-!
PROOFS. The writers of `H` and `POS` (10_state.md sections 1 and 2) and the idle step (section 9).
-/

namespace Sys2Proof

/-- The decoder answers a command only for that command's own encoding (R61). -/
theorem eq_encode_of_decode {w : CmdWord} {i : Instr} (h : decode w = .ok i) : w = encode i := by
  rw [decode_eq] at h
  split_ifs at h with h1 h2 h3 h4 h5 <;> cases h
  · exact h1
  · have hbits : w = (w &&& 0xFF00) ||| w.imm8.setWidth 16 := by
      apply BitVec.eq_of_getLsbD_eq
      intro j hj
      interval_cases j <;> simp [CmdWord.imm8]
    rwa [h2] at hbits
  · exact h3
  · exact h4
  · exact h5

end Sys2Proof

namespace Sys2Proof.Machine

/-- A command keeps `H` and `POS`, unless it is RESET or the UPDATE_BYTE that compresses a held
block (R20, R23). -/
theorem exec_chain_cases {i : Instr} {s t : State} (h : exec i s = .next t) :
    (t.h = s.h ∧ t.pos = s.pos) ∨
    (i = .reset ∧ t.h = iv ∧ t.pos = 0) ∨
    (∃ b, i = .updateByte b ∧ s.err = false ∧ s.cnt.toNat = 64 ∧ s.pos.toNat + 64 < 2 ^ 96 ∧
      t.h = ubi s.h (blockRead s.buf) (s.pos.toNat + 64) .msg s.first false ∧
      t.pos = BitVec.ofNat 128 (s.pos.toNat + 64)) := by
  obtain ⟨hi, rfl⟩ | ⟨-, -, rfl⟩ | ⟨b, -, -, -, rfl⟩ | ⟨b, hi, he, hc, hp, rfl⟩ |
    ⟨b, -, -, -, -, rfl⟩ | ⟨-, -, -, -, rfl⟩ | ⟨-, -, -, rfl⟩ | ⟨-, -, rfl⟩ := exec_cases h
  case inl => exact .inr (.inl ⟨hi, by simp, by simp⟩)
  case inr.inr.inr.inl => exact .inr (.inr ⟨b, hi, he, hc, hp, by simp, by simp⟩)
  all_goals exact .inl ⟨by simp, by simp⟩

/-- A step keeps `H` and `POS`, unless it runs the RESET word or the UPDATE_BYTE that compresses a
held block. -/
theorem step_chain_cases {s t : State} (h : step s = .next t) :
    (t.h = s.h ∧ t.pos = s.pos) ∨
    (∃ ws, s.commands = 0x1000 :: ws ∧ t.h = iv ∧ t.pos = 0) ∨
    (∃ b ws, s.commands = encode (.updateByte b) :: ws ∧ s.err = false ∧ s.cnt.toNat = 64 ∧
      s.pos.toNat + 64 < 2 ^ 96 ∧
      t.h = ubi s.h (blockRead s.buf) (s.pos.toNat + 64) .msg s.first false ∧
      t.pos = BitVec.ofNat 128 (s.pos.toNat + 64)) := by
  obtain ⟨-, rfl⟩ | ⟨w, ws, e, -, -, rfl⟩ | ⟨w, ws, i, hw, hd, hx⟩ := step_cases h
  · exact .inl ⟨rfl, rfl⟩
  · exact .inl ⟨by simp, by simp⟩
  · have hw : s.commands = encode i :: ws := by rw [hw, eq_encode_of_decode hd]
    obtain hkept | ⟨rfl, hreset⟩ | ⟨b, rfl, hcommit⟩ := exec_chain_cases hx
    · exact .inl hkept
    · exact .inr (.inl ⟨ws, hw, hreset⟩)
    · exact .inr (.inr ⟨b, ws, hw, hcommit⟩)

/-- Settles O31: of the three cases of a step, the kept one contradicts the change of `H`. -/
theorem chainingValueWriters : Obligations.ChainingValueWriters := by
  intro s t hs hne
  obtain ⟨hh, -⟩ | ⟨ws, hw, hh, -⟩ | ⟨b, ws, hw, he, hc, -, hh, -⟩ := step_chain_cases hs
  · exact absurd hh hne
  · exact .inl ⟨ws, hw, hh⟩
  · exact .inr ⟨b, ws, hw, hc, he, hh⟩

/-- Settles O32: of the three cases of a step, the kept one contradicts the change of `POS`; the
compression's position is below `2^96`, so it is stored exactly. -/
theorem positionWriters : Obligations.PositionWriters := by
  intro s t hs hne
  obtain ⟨-, hpos⟩ | ⟨ws, hw, -, hpos⟩ | ⟨b, ws, hw, -, hc, hp, -, hpos⟩ := step_chain_cases hs
  · exact absurd hpos hne
  · exact .inl ⟨ws, hw, hpos⟩
  · refine .inr ⟨b, ws, hw, hc, ?_⟩
    rw [hpos, BitVec.toNat_ofNat, Nat.mod_eq_of_lt (by omega)]

/-- Settles O19: the command cycle's own law for an empty command channel. -/
theorem idleStepChangesNothing : Obligations.IdleStepChangesNothing :=
  fun _ => step_idle

end Sys2Proof.Machine
end

