-- ==== Sys2Proof/Proofs/ReaderFrame.lean ====
section
/-!
PROOFS. The frame of DIGEST and the length queries (20_memory.md section 4, R46).
-/

namespace Sys2Proof.Machine

/-- DIGEST and the queries do one of two things: send a response and nothing else, or take the
overflow error of R222. -/
theorem exec_reader_cases {i : Instr} {s t : State}
    (hi : i = .digest ∨ i = .getBlockLength ∨ i = .getOutputLength) (h : exec i s = .next t) :
    (∃ r, t = respond r s) ∨ t = raise .positionOverflow s := by
  obtain ⟨rfl, -⟩ | ⟨-, -, rfl⟩ | ⟨b, rfl, -⟩ | ⟨b, rfl, -⟩ | ⟨b, rfl, -⟩ | ⟨-, -, -, -, rfl⟩ |
    ⟨-, -, -, rfl⟩ | ⟨-, -, rfl⟩ := exec_cases h
  · simp at hi
  · exact .inl ⟨_, rfl⟩
  · simp at hi
  · simp at hi
  · simp at hi
  · exact .inl ⟨_, rfl⟩
  · exact .inr rfl
  · exact .inl ⟨_, rfl⟩

/-- Settles O33: a response writes no register, and the error entry that writes STATUS answers a
status other than OK. -/
theorem readersWriteNoRegister : Obligations.ReadersWriteNoRegister := by
  intro i s t hi h
  obtain ⟨r, rfl⟩ | rfl := exec_reader_cases hi h <;> simp

end Sys2Proof.Machine
end

