-- ==== Sys2Proof/Proofs/CommandWords.lean ====
section
/-!
PROOFS. Command words (30_encoding.md sections 1 and 4): the fields as numbers, the encoder and the
decoder undo each other, legality by fields, masks and decoder, and the pseudo-instructions.
-/

namespace Sys2Proof

/-! ### The fields of a word (R60) -/

theorem CmdWord.toNat_op (w : CmdWord) : w.op.toNat = w.toNat / 0x1000 := by
  have hw := w.isLt
  simp only [op, BitVec.extractLsb'_toNat, Nat.shiftRight_eq_div_pow]
  omega

theorem CmdWord.toNat_rsv (w : CmdWord) : w.rsv.toNat = w.toNat / 0x100 % 0x10 := by
  simp only [rsv, BitVec.extractLsb'_toNat, Nat.shiftRight_eq_div_pow]

theorem CmdWord.toNat_imm8 (w : CmdWord) : w.imm8.toNat = w.toNat % 0x100 := by
  simp only [imm8, BitVec.extractLsb'_toNat, Nat.shiftRight_zero]

/-- The UPDATE_BYTE row fixes `OP` and `RSV` and leaves `IMM8` free (R61). -/
theorem CmdWord.updateByte_row_iff_fields (w : CmdWord) :
    w &&& 0xFF00 = 0x2000 ↔ w.op = 2 ∧ w.rsv = 0 := by
  have hw := w.isLt
  rw [updateByte_row_iff]
  simp only [BitVec.toNat_eq, toNat_op, toNat_rsv, BitVec.extractLsb'_toNat,
    Nat.shiftRight_eq_div_pow, BitVec.reduceToNat]
  omega

/-! ### The fields of an encoding (R61) -/

theorem toNat_encode_updateByte (b : BitVec 8) :
    (encode (.updateByte b)).toNat = 0x2000 + b.toNat := by
  have hb : b.toNat < 2 ^ 13 := by omega
  rw [encode, BitVec.toNat_or, BitVec.toNat_setWidth, Nat.mod_eq_of_lt (by omega)]
  exact (Nat.two_pow_add_eq_or_of_lt hb 1).symm

@[simp] theorem op_encode_reset : (encode .reset).op = 1 := rfl
@[simp] theorem op_encode_digest : (encode .digest).op = 3 := rfl
@[simp] theorem op_encode_getBlockLength : (encode .getBlockLength).op = 4 := rfl
@[simp] theorem op_encode_getOutputLength : (encode .getOutputLength).op = 5 := rfl

@[simp] theorem op_encode_updateByte (b : BitVec 8) : (encode (.updateByte b)).op = 2 := by
  have hb := b.isLt
  apply BitVec.eq_of_toNat_eq
  simp only [CmdWord.toNat_op, toNat_encode_updateByte, BitVec.reduceToNat]
  omega

@[simp] theorem rsv_encode_updateByte (b : BitVec 8) : (encode (.updateByte b)).rsv = 0 := by
  have hb := b.isLt
  apply BitVec.eq_of_toNat_eq
  simp only [CmdWord.toNat_rsv, toNat_encode_updateByte, BitVec.reduceToNat]
  omega

@[simp] theorem imm8_encode_updateByte (b : BitVec 8) : (encode (.updateByte b)).imm8 = b := by
  have hb := b.isLt
  apply BitVec.eq_of_toNat_eq
  simp only [CmdWord.toNat_imm8, toNat_encode_updateByte]
  omega

/-! ### Decoder and encoder -/

theorem decode_encode (i : Instr) : decode (encode i) = .ok i := by
  cases i with
  | updateByte b =>
    have hrow : encode (.updateByte b) &&& 0xFF00 = 0x2000 :=
      (CmdWord.updateByte_row_iff_fields _).2 ⟨op_encode_updateByte b, rsv_encode_updateByte b⟩
    have hreset : encode (.updateByte b) ≠ 0x1000 := fun h =>
      absurd (congrArg CmdWord.op h) (by rw [op_encode_updateByte]; decide)
    rw [decode_eq, if_neg hreset, if_pos hrow, imm8_encode_updateByte]
  | reset => rfl
  | digest => rfl
  | getBlockLength => rfl
  | getOutputLength => rfl

/-- Settles O25: both directions, each a lemma of its own. -/
theorem decodeEncodeAgree : Obligations.DecodeEncodeAgree := by
  intro i w
  constructor
  · exact eq_encode_of_decode
  · rintro rfl
    exact decode_encode i

/-! ### Legal words (R62) -/

/-- The decoder accepts exactly the words of the five rows. -/
theorem decode_ok_iff_row (w : CmdWord) :
    (∃ i, decode w = .ok i) ↔
      w = 0x1000 ∨ w &&& 0xFF00 = 0x2000 ∨ w = 0x3000 ∨ w = 0x4000 ∨ w = 0x5000 := by
  rw [decode_eq]
  split_ifs <;> simp_all

theorem decode_ok_iff_fields (w : CmdWord) :
    (∃ i, decode w = .ok i) ↔
      1 ≤ w.op.toNat ∧ w.op.toNat ≤ 5 ∧ w.rsv = 0 ∧ (w.op ≠ 2 → w.imm8 = 0) := by
  have hw := w.isLt
  rw [decode_ok_iff_row, CmdWord.updateByte_row_iff_fields]
  simp only [ne_eq, BitVec.toNat_eq, CmdWord.toNat_op, CmdWord.toNat_rsv, CmdWord.toNat_imm8,
    BitVec.reduceToNat]
  omega

/-- A full mask asks for the whole word. -/
theorem decode_ok_iff_masks (w : CmdWord) :
    (∃ i, decode w = .ok i) ↔
      w &&& 0xFFFF = 0x1000 ∨ w &&& 0xFF00 = 0x2000 ∨ w &&& 0xFFFF = 0x3000 ∨
        w &&& 0xFFFF = 0x4000 ∨ w &&& 0xFFFF = 0x5000 := by
  have hfull : w &&& 0xFFFF = w := BitVec.and_allOnes
  rw [hfull]
  exact decode_ok_iff_row w

theorem legal_iff_fields (w : CmdWord) :
    w.legal = true ↔
      1 ≤ w.op.toNat ∧ w.op.toNat ≤ 5 ∧ w.rsv = 0 ∧ (w.op ≠ 2 → w.imm8 = 0) := by
  simp only [CmdWord.legal, CmdWord.opcodeAssigned, CmdWord.reservedClear,
    CmdWord.immediateAllowed, CmdWord.op, CmdWord.rsv, CmdWord.imm8, Bool.and_eq_true,
    Bool.or_eq_true, decide_eq_true_eq, beq_iff_eq, ne_eq, and_assoc, or_iff_not_imp_left]

theorem decode_ok_iff_legal (w : CmdWord) : (∃ i, decode w = .ok i) ↔ w.legal = true := by
  rw [decode_ok_iff_fields, legal_iff_fields]

end Sys2Proof

namespace Sys2Proof.Machine

/-- A step on a word that is not legal is the error entry of R221. -/
theorem step_of_not_legal {s : State} {w : CmdWord} {ws : List CmdWord}
    (hw : s.commands = w :: ws) (hl : w.legal = false) :
    step s = .next (raise .illegalCommand { s with commands := ws }) := by
  rw [step_accept hw]
  cases hd : decode w with
  | ok i =>
    have : w.legal = true := (decode_ok_iff_legal w).1 ⟨i, hd⟩
    simp [hl] at this
  | error e => rfl

/-- Settles O24: the decoder against the fields, the masks and the three checks, and the step on an
illegal word. -/
theorem legalWordsAreTheDecodedOnes : Obligations.LegalWordsAreTheDecodedOnes := fun w =>
  ⟨decode_ok_iff_fields w, decode_ok_iff_masks w, decode_ok_iff_legal w,
    fun _ _ => step_of_not_legal⟩

/-- Settles O26: the decoder evaluated on the nine words. -/
theorem sampleWordsDecode : Obligations.SampleWordsDecode := by
  unfold Obligations.SampleWordsDecode
  decide

/-! ### Pseudo-instructions (R74) -/

theorem updateWords_nil : updateWords [] = [] := rfl

theorem updateWords_cons (b : Byte) (bs : List Byte) :
    updateWords (b :: bs) = encode (.updateByte b) :: updateWords bs := rfl

/-- Settles O40: `UPDATE` maps the encoder over its bytes, and `DIGEST_BYTES` appends DIGEST. -/
theorem pseudoInstructionsExpand : Obligations.PseudoInstructionsExpand :=
  ⟨updateWords_nil, updateWords_cons, fun _ => rfl⟩

end Sys2Proof.Machine
end

