-- ==== Sys2Proof/Proofs/Responses.lean ====
section
/-!
PROOFS. Responses (30_encoding.md section 2): the status codes, one response for each command word,
and the payload of an OK response.
-/

namespace Sys2Proof.Machine

/-! ### Status codes (R65) and octets (R64) -/

theorem ErrorStatus.code_ne_zero (e : ErrorStatus) : e.code ≠ 0x00 := by
  cases e <;> decide

theorem Response.status_lt (r : Response) : r.status.toNat < 0x04 := by
  cases r with
  | ok p => simp
  | error e => cases e <;> decide

/-- Settles O17: the four codes by their definition, and the bound. -/
theorem statusCodes : Obligations.StatusCodes :=
  ⟨fun _ => rfl, rfl, rfl, rfl, Response.status_lt⟩

theorem Response.octets_of_status_ne_zero {r : Response} (h : r.status ≠ 0x00) :
    r.octets = [r.status] := by
  cases r with
  | ok p => simp at h
  | error e => rfl

/-- The octets of an OK response to a command (R66). -/
def OkOctets : Instr → List Byte → Prop
  | .reset, os => os = [0x00]
  | .updateByte _, os => os = [0x00]
  | .digest, os => os.length = 65
  | .getBlockLength, os => os = [0x00, 0x40]
  | .getOutputLength, os => os = [0x00, 0x40]

theorem octets_digestBytes (s : State) (blk : Block) (p : Nat) :
    (Response.ok (digestBytes s blk p)).octets.length = 65 := by
  simp [Response.octets, digestBytes]

/-! ### One response for each command word -/

theorem respond_answered (r : Response) (s : State) : s.Answered (respond r s) r :=
  ⟨rfl, rfl, rfl⟩

theorem raise_answered (e : ErrorCause) (s : State) : s.Answered (raise e s) (.error e.status) :=
  ⟨by simp, by simp, by simp⟩

/-- From `s` to `t` one response was sent, and if it is OK it has the payload of the command. -/
def AnsweredBy (i : Instr) (s t : State) : Prop :=
  ∃ r, s.Answered t r ∧ (r.status = 0x00 → OkOctets i r.octets)

theorem answeredBy_ok {i : Instr} {s t : State} {p : List Byte} (h : s.Answered t (.ok p))
    (hp : OkOctets i (Response.ok p).octets) : AnsweredBy i s t :=
  ⟨_, h, fun _ => hp⟩

theorem answeredBy_error {s t : State} {e : ErrorStatus} (i : Instr) (h : s.Answered t (.error e)) :
    AnsweredBy i s t :=
  ⟨_, h, fun hok => absurd hok e.code_ne_zero⟩

theorem exec_answeredBy {i : Instr} {s t : State} (h : exec i s = .next t) : AnsweredBy i s t := by
  obtain ⟨rfl, rfl⟩ | ⟨-, -, rfl⟩ | ⟨b, rfl, -, -, rfl⟩ | ⟨b, rfl, -, -, -, rfl⟩ |
    ⟨b, -, -, -, -, rfl⟩ | ⟨rfl, -, -, -, rfl⟩ | ⟨-, -, -, rfl⟩ | ⟨rfl | rfl, -, rfl⟩ := exec_cases h
  · exact answeredBy_ok ⟨rfl, rfl, rfl⟩ rfl
  · exact answeredBy_error i (respond_answered _ s)
  · exact answeredBy_ok ⟨rfl, rfl, rfl⟩ rfl
  · exact answeredBy_ok ⟨rfl, rfl, rfl⟩ rfl
  · exact answeredBy_error i (raise_answered _ s)
  · exact answeredBy_ok ⟨rfl, rfl, rfl⟩ (octets_digestBytes s _ _)
  · exact answeredBy_error i (raise_answered _ s)
  · exact answeredBy_ok (respond_answered _ s) rfl
  · exact answeredBy_ok (respond_answered _ s) rfl

theorem exec_of_pending {i : Instr} {s : State} (hi : i ≠ .reset) (he : s.err = true) :
    exec i s = .next (respond (.error .errorPending) s) := by
  cases i with
  | reset => exact absurd rfl hi
  | updateByte b => rw [exec, execUpdateByte, unlessErrorPending_err he]
  | digest => rw [exec, execDigest, unlessErrorPending_err he]
  | getBlockLength => rw [exec, execGetBlockLength, unlessErrorPending_err he]
  | getOutputLength => rw [exec, execGetOutputLength, unlessErrorPending_err he]

/-- With `CNT` at most 64 every command answers (R22, R233). -/
theorem exec_answers (i : Instr) {s : State} (hc : s.cnt.toNat ≤ 64) : ∃ t, exec i s = .next t := by
  by_cases hi : i = .reset
  · subst hi; exact ⟨_, rfl⟩
  cases he : s.err with
  | true => exact ⟨_, exec_of_pending hi he⟩
  | false =>
    cases i with
    | reset => exact absurd rfl hi
    | updateByte b =>
      obtain hroom | hheld := Nat.lt_or_eq_of_le hc
      · exact ⟨_, execUpdateByte_room he hroom b⟩
      obtain hp | hp := Nat.lt_or_ge (s.pos.toNat + 64) (2 ^ 96)
      · exact ⟨_, execUpdateByte_commit he hheld hp b⟩
      · exact ⟨_, execUpdateByte_overflow he hheld hp b⟩
    | digest =>
      obtain hp | hp := Nat.lt_or_ge s.absorbed (2 ^ 96)
      · exact ⟨_, execDigest_answer he hc hp⟩
      · exact ⟨_, execDigest_overflow he hp⟩
    | getBlockLength => rw [exec, execGetBlockLength, unlessErrorPending_clear he]; exact ⟨_, rfl⟩
    | getOutputLength => rw [exec, execGetOutputLength, unlessErrorPending_clear he]; exact ⟨_, rfl⟩

/-- With `CNT` at most 64 a step on a word accepts it and sends exactly one response, whether the
word is legal or not (R64, R180). -/
theorem step_answers {s : State} {w : CmdWord} {ws : List CmdWord} (hw : s.commands = w :: ws)
    (hc : s.cnt.toNat ≤ 64) :
    ∃ t r, step s = .next t ∧ (withCommands ws s).Answered t r := by
  rw [step_accept hw]
  cases decode w with
  | ok i =>
    obtain ⟨t, ht⟩ := exec_answers i (s := withCommands ws s) hc
    obtain ⟨r, hr, -⟩ := exec_answeredBy ht
    exact ⟨t, r, ht, hr⟩
  | error e => exact ⟨_, _, rfl, raise_answered _ _⟩

/-- Settles O20: the one response of a step, and its octets by its status. -/
theorem oneResponsePerCommand : Obligations.OneResponsePerCommand := by
  intro s w ws hw hc
  obtain ⟨t, r, hstep, hans⟩ := step_answers hw hc
  refine ⟨t, r, hstep, hans.commands, hans.responses, ?_, Response.octets_of_status_ne_zero⟩
  rintro p rfl
  rfl

/-! ### The payload of an OK response (R66) -/

/-- A response with status OK answers a legal word, with the payload of the word's command. -/
theorem step_okOctets {s t : State} {w : CmdWord} {ws : List CmdWord} {r : Response}
    (hw : s.commands = w :: ws) (hstep : step s = .next t) (hr : t.responses = s.responses ++ [r])
    (hok : r.status = 0x00) : ∃ i, w = encode i ∧ OkOctets i r.octets := by
  rw [step_accept hw] at hstep
  cases hd : decode w with
  | ok i =>
    rw [hd] at hstep
    obtain ⟨r', hans, hoct⟩ := exec_answeredBy hstep
    obtain rfl : r' = r := by simpa using hans.responses.symm.trans hr
    exact ⟨i, eq_encode_of_decode hd, hoct hok⟩
  | error e =>
    rw [hd] at hstep
    cases hstep
    obtain rfl : .error ErrorCause.illegalCommand.status = r := by simpa using hr
    exact absurd hok ErrorCause.illegalCommand.status.code_ne_zero

/-- Settles O21: the word is the encoding of a command, and its `OP` tells which one. -/
theorem payloadByCommand : Obligations.PayloadByCommand := by
  intro s t w ws r hw hstep hr hok
  obtain ⟨i, rfl, hoct⟩ := step_okOctets hw hstep hr hok
  cases i <;> simpa [OkOctets] using hoct

end Sys2Proof.Machine
end

