-- ==== Sys2Proof/Proofs/TweakLayout.lean ====
section
/-!
PROOFS. The layout of the tweak (30_encoding.md section 3, R67, R68).
-/

namespace Sys2Proof.Machine

/-- The two words of a tweak are its low and its high half (R68). -/
theorem makeTweak_append (pos : Nat) (type : BlockType) (first final : Bool) :
    (makeTweak pos type first final)[1] ++ (makeTweak pos type first final)[0] =
      tweakValue pos type first final :=
  BitVec.extractLsb'_append_extractLsb' (w := 64) (len := 64)

/-- The Type field is 6 bits wide (R67). -/
theorem typeCode_lt (type : BlockType) : typeCode type < 2 ^ 6 := by
  cases type <;> decide

/-- No field of the tweak carries into the next one, so its value is the plain sum (R67). -/
theorem toNat_tweakValue {pos : Nat} (hpos : pos < 2 ^ 96) (type : BlockType) (first final : Bool) :
    (tweakValue pos type first final).toNat =
      pos + typeCode type * 2 ^ 120 + first.toNat * 2 ^ 126 + final.toNat * 2 ^ 127 := by
  have htype := typeCode_lt type
  have hfirst := first.toNat_le
  have hfinal := final.toNat_le
  simp only [tweakValue, BitVec.toNat_ofNat, Nat.shiftLeft_eq]
  omega

/-- A bit of a word is the remainder modulo 2 of a quotient. -/
theorem getLsbD_of_quotient {n i : Nat} {v : BitVec n} {b : Bool}
    (h : v.toNat / 2 ^ i % 2 = b.toNat) : v.getLsbD i = b := by
  rw [← BitVec.testBit_toNat, Nat.testBit_eq_decide_div_mod_eq, h]
  cases b <;> rfl

theorem extractLsb'_eq_zero_of_quotient {n a k : Nat} {v : BitVec n}
    (h : v.toNat / 2 ^ a % 2 ^ k = 0) : v.extractLsb' a k = 0 := by
  apply BitVec.eq_of_toNat_eq
  simpa [BitVec.extractLsb'_toNat, Nat.shiftRight_eq_div_pow] using h

/-- Settles O49: each field is a quotient and a remainder of the sum that is the tweak's value. -/
theorem tweakFields : Obligations.TweakFields := by
  intro pos type first final hpos T
  have hT : T.toNat =
      pos + typeCode type * 2 ^ 120 + first.toNat * 2 ^ 126 + final.toNat * 2 ^ 127 := by
    rw [← toNat_tweakValue hpos, ← makeTweak_append]
  have htype := typeCode_lt type
  have hfirst := first.toNat_le
  have hfinal := final.toNat_le
  refine ⟨?position, ?reserved, ?treeLevel, ?bitPad, ?blockType, ?firstBit, ?finalBit⟩
  case position => rw [BitVec.extractLsb'_toNat]; omega
  case reserved => apply extractLsb'_eq_zero_of_quotient; omega
  case treeLevel => apply extractLsb'_eq_zero_of_quotient; omega
  case bitPad => apply getLsbD_of_quotient; rw [Bool.toNat_false]; omega
  case blockType => rw [BitVec.extractLsb'_toNat]; omega
  case firstBit => apply getLsbD_of_quotient; omega
  case finalBit => apply getLsbD_of_quotient; omega

end Sys2Proof.Machine
end

