-- ==== Sys2Proof/Proofs/WordPrimitives.lean ====
section
/-!
PROOFS. The word primitives (41_word_primitives.md R100-R106): bytes of a loaded word, bytes of a
stored word, and rotation.
-/

namespace Sys2Proof.Machine

/-! ### Load64LE (R100) -/

/-- The sum of eight weighted bytes is below `2^64`, so the word holds it exactly. -/
theorem toNat_load64le {n : Nat} (b : Vector Byte n) (off : Nat) (h : off + 8 ≤ n) :
    (load64le b off h).toNat =
      b[off].toNat + b[off + 1].toNat * 0x100 + b[off + 2].toNat * 0x10000
        + b[off + 3].toNat * 0x1000000 + b[off + 4].toNat * 0x100000000
        + b[off + 5].toNat * 0x10000000000 + b[off + 6].toNat * 0x1000000000000
        + b[off + 7].toNat * 0x100000000000000 := by
  rw [load64le, BitVec.toNat_ofNat]
  exact Nat.mod_eq_of_lt (by omega)

/-- A byte of the word is a base-256 digit of the sum. -/
theorem extractLsb'_load64le {n : Nat} (b : Vector Byte n) (off : Nat) (h : off + 8 ≤ n)
    (k : Fin 8) : (load64le b off h).extractLsb' (8 * k.val) 8 = b[off + k.val] := by
  apply BitVec.eq_of_toNat_eq
  rw [BitVec.extractLsb'_toNat, toNat_load64le, Nat.shiftRight_eq_div_pow]
  obtain ⟨k, hk⟩ := k
  interval_cases k <;> simp only [Nat.add_zero] <;> omega

/-- Settles O41: the sum does not wrap, and the bytes are its digits. -/
theorem loadIsLittleEndian : Obligations.LoadIsLittleEndian := fun _ b off h =>
  ⟨toNat_load64le b off h, extractLsb'_load64le b off h⟩

/-! ### Store64LE and WordsToBytes (R101, R103) -/

theorem getElem_store64le (w : Word) (k : Fin 8) :
    (store64le w)[k] = w.extractLsb' (8 * k.val) 8 := by
  fin_cases k <;> rfl

theorem getElem_wordsToBytes (w : Words) (i k : Fin 8) :
    (wordsToBytes w)[8 * i.val + k.val] = (store64le w[i])[k] := by
  have hword : (8 * i.val + k.val) / 8 = i.val := by omega
  have hbyte : (8 * i.val + k.val) % 8 = k.val := by omega
  simp only [wordsToBytes, Vector.getElem_ofFn, hword, hbyte, Fin.getElem_fin]

/-- Settles O42: the byte of a stored word, and the place of that byte in the block. -/
theorem storeIsLittleEndian : Obligations.StoreIsLittleEndian :=
  ⟨getElem_store64le, getElem_wordsToBytes⟩

/-! ### RotL64 (R106) -/

/-- The bits shifted out at the top fill the `r` low bits that the left shift leaves zero, so the
OR of the two parts is their sum. -/
theorem toNat_rotL64 (x : Word) {r : Nat} (hr : r < 64) :
    (rotL64 x r).toNat = x.toNat * 2 ^ r % 2 ^ 64 + x.toNat / 2 ^ (64 - r) := by
  have hsplit : 2 ^ 64 = 2 ^ (64 - r) * 2 ^ r := by rw [← Nat.pow_add, Nat.sub_add_cancel hr.le]
  have hhigh : x.toNat * 2 ^ r % 2 ^ 64 = (x.toNat % 2 ^ (64 - r)) <<< r := by
    rw [hsplit, Nat.mul_mod_mul_right, Nat.shiftLeft_eq]
  have hlow : x.toNat / 2 ^ (64 - r) < 2 ^ r := Nat.div_lt_of_lt_mul (hsplit ▸ x.isLt)
  rw [rotL64, BitVec.toNat_rotateLeft, Nat.mod_eq_of_lt hr, Nat.shiftLeft_eq,
    Nat.shiftRight_eq_div_pow, hhigh, Nat.shiftLeft_add_eq_or_of_lt hlow]

/-- Bit `i` moves up by `r`, or wraps around to `i + r - 64`. -/
theorem getLsbD_rotL64 (x : Word) {r i : Nat} (hr : r < 64) (hi : i < 64) :
    (rotL64 x r).getLsbD ((i + r) % 64) = x.getLsbD i := by
  rw [rotL64, BitVec.getLsbD_rotateLeft, Nat.mod_eq_of_lt hr]
  obtain hstay | hwrap := Nat.lt_or_ge (i + r) 64
  · simp [Nat.mod_eq_of_lt hstay, hstay]
  · have hindex : (i + r) % 64 = i + r - 64 := by omega
    have hsource : 64 - r + (i + r - 64) = i := by omega
    have hlt : i + r - 64 < r := by omega
    simp [hindex, hsource, hlt]

/-- Settles O44: the formula and its bit form, which hold for every amount below 64. -/
theorem rotateLeftFormula : Obligations.RotateLeftFormula := fun x _ _ hr =>
  ⟨toNat_rotL64 x (Nat.lt_succ_of_le hr), fun _ hi => getLsbD_rotL64 x (Nat.lt_succ_of_le hr) hi⟩

end Sys2Proof.Machine
end

