-- ==== Sys2Proof/Proofs/Cipher.lean ====
section
/-!
PROOFS. Threefish-512 (42_threefish.md R122-R131): the key schedule, one round, and the cipher as
round groups.
-/

namespace Sys2Proof.Machine

/-! ### Round groups (R130, R131) -/

/-- A round whose number is a multiple of four takes the injection of the next subkey (R130). -/
theorem inject_four_mul (k : Vector Word 9) (t : Vector Word 3) (v : Words) (s : Nat) :
    inject k t v (4 * s) = addWords v (subkey k t s) := by
  rw [inject, if_pos (Nat.mul_mod_right 4 s), Nat.mul_div_cancel_left s (by decide)]

/-- The other three rounds of a group take none (R130). -/
theorem inject_four_mul_add (k : Vector Word 9) (t : Vector Word 3) (v : Words) (s : Nat) {j : Nat}
    (hpos : 0 < j) (hlt : j < 4) : inject k t v (4 * s + j) = v :=
  if_neg (by omega)

/-- Four rounds of the loop, from a multiple of four on, are one round group. -/
theorem cipherRounds_four_mul_succ (k : Vector Word 9) (t : Vector Word 3) (p : Words) (s : Nat) :
    cipherRounds k t p (4 * (s + 1)) = roundGroup k t (cipherRounds k t p (4 * s)) s := by
  simp (disch := decide) only [Nat.mul_succ, cipherRounds, inject_four_mul, inject_four_mul_add,
    roundGroup]

/-- The first `4n` rounds of the loop are the first `n` round groups. -/
theorem cipherRounds_four_mul (k : Vector Word 9) (t : Vector Word 3) (p : Words) (n : Nat) :
    cipherRounds k t p (4 * n) = (List.range n).foldl (roundGroup k t) p := by
  induction n with
  | zero => rfl
  | succ n ih =>
    rw [cipherRounds_four_mul_succ, ih, List.range_succ, List.foldl_append, List.foldl_cons,
      List.foldl_nil]

/-- Settles O48: the 72 rounds are `4 * 18`, and the last injection is the cipher's own. -/
theorem cipherIsEighteenRoundGroups : Obligations.CipherIsEighteenRoundGroups := by
  intro k t p
  have hrounds : cipherRounds (extendKey k) (extendTweak t) p Config.rounds =
      (List.range 18).foldl (roundGroup (extendKey k) (extendTweak t)) p :=
    cipherRounds_four_mul (extendKey k) (extendTweak t) p 18
  rw [threefish512Encrypt, hrounds]

/-! ### Key and tweak extension (R122, R123) -/

/-- The first eight words are copied (R122). -/
theorem getElem_extendKey_copied (k : Words) (i : Fin 8) : (extendKey k)[i.val] = k[i] := by
  fin_cases i <;> rfl

/-- The ninth word is the fold of XOR over the key words, from C240 (R121, R122). -/
theorem getElem_extendKey_eight (k : Words) :
    (extendKey k)[8] = (List.finRange 8).foldl (fun acc i => acc ^^^ k[i]) c240 :=
  rfl

/-- Settles O45: the copied words, the parity word of the key, and the three tweak words. -/
theorem keyAndTweakExtension : Obligations.KeyAndTweakExtension :=
  ⟨fun k => ⟨getElem_extendKey_copied k, getElem_extendKey_eight k⟩, fun _ => ⟨rfl, rfl, rfl⟩⟩

/-! ### Subkeys (R125) -/

/-- The words that no tweak word and no subkey number enters. -/
theorem getElem_subkey_untweaked (k : Vector Word 9) (t : Vector Word 3) (s : Nat) (i : Fin 5) :
    (subkey k t s)[i.val] = keyWord k (s + i.val) := by
  fin_cases i <;> rfl

/-- Settles O46: words 0 to 4 are key words; words 5 to 7 are the sums of the definition. -/
theorem subkeyWords : Obligations.SubkeyWords := fun k t s _ =>
  ⟨getElem_subkey_untweaked k t s, rfl, rfl, rfl⟩

/-! ### One round (R127, R128, R129) -/

theorem toNat_mix_fst (a b : Word) (r : Nat) :
    (mix a b r).1.toNat = (a.toNat + b.toNat) % 2 ^ 64 :=
  BitVec.toNat_add a b

theorem mix_snd (a b : Word) (r : Nat) : (mix a b r).2 = rotL64 b r ^^^ (mix a b r).1 :=
  rfl

/-- The permutation of R128 written out. -/
theorem permute_eq (f : Words) :
    permute f = #v[f[2], f[1], f[4], f[7], f[6], f[5], f[0], f[3]] :=
  rfl

/-- Settles O47: the sum of MIX modulo `2^64`, and the eight words of the MIX layer permuted. -/
theorem roundMixesAndPermutes : Obligations.RoundMixesAndPermutes :=
  ⟨fun a b r => ⟨toNat_mix_fst a b r, mix_snd a b r⟩, fun v d => permute_eq (mixLayer v d)⟩

end Sys2Proof.Machine
end

