-- ==== Sys2Proof/Proofs/UbiPasses.lean ====
section
/-!
PROOFS. The message pass and the configuration pass of UBI (43_ubi.md R152-R156).
-/

namespace Sys2Proof.Machine

/-! ### The message pass (R153-R156) -/

/-- The empty message is one zero block at position 0 (R155). -/
theorem messagePass_nil (g : Words) : messagePass g [] = ubi g zeroBlock 0 .msg true true := rfl

/-- The blocks of a nonempty message before its last one are chained as whole blocks (R153). -/
theorem messagePass_eq_messageStep_last (g : Words) (m : List Byte) {q : Nat}
    (hq : (m.length + 63) / 64 = q + 1) :
    messagePass g m = messageStep m (q + 1) (chainAfter g m q) q := by
  have hchain : (List.range q).foldl (messageStep m (q + 1)) g = chainAfter g m q :=
    foldl_messageStep m g (q + 1) q (by omega) (by omega)
  have hne : m.length ≠ 0 := by omega
  simp only [messagePass, if_neg hne, hq]
  rw [List.range_succ, List.foldl_append, hchain, List.foldl_cons, List.foldl_nil]

/-- With at most one block left, the block is the whole rest, zero-padded (R153). -/
theorem messageBlock_eq_padBlock_drop {m : List Byte} {q : Nat} (hm : m.length ≤ 64 * (q + 1)) :
    messageBlock m q = padBlock (m.drop (64 * q)) := by
  have hrest : (m.drop (64 * q)).length ≤ messageBlockLength m.length q := by
    rw [List.length_drop, messageBlockLength]; omega
  rw [messageBlock, List.take_of_length_le hrest]

/-- The last block ends at the message's own length (R154) and is the final one. -/
theorem messageStep_last (m : List Byte) (g : Words) {q : Nat} (hlow : 64 * q ≤ m.length)
    (hhigh : m.length ≤ 64 * (q + 1)) :
    messageStep m (q + 1) g q =
      ubi g (padBlock (m.drop (64 * q))) m.length .msg (decide (q = 0)) true := by
  have hpos : 64 * q + messageBlockLength m.length q = m.length := by
    rw [messageBlockLength]; omega
  have hfinal : (q == q + 1 - 1) = true := beq_self_eq_true q
  rw [messageStep, messageBlock_eq_padBlock_drop hhigh, hpos, hfinal, beq_eq_decide]

/-- The message pass of a message whose last byte is in block `q`. A message of exactly
`64 * (q + 1)` bytes is one of these: no block follows its last full one (R156). -/
theorem messagePass_eq_ubi_last (g : Words) {m : List Byte} {q : Nat} (hlow : 64 * q < m.length)
    (hhigh : m.length ≤ 64 * (q + 1)) :
    messagePass g m =
      ubi (chainAfter g m q) (padBlock (m.drop (64 * q))) m.length .msg (decide (q = 0)) true := by
  rw [messagePass_eq_messageStep_last g m (q := q) (by omega),
    messageStep_last m _ hlow.le hhigh]

/-- Settles O51: the last byte of a message of `n > 0` bytes is in block `(n + 63) / 64 - 1`, and of
one of `64 * (q + 1)` bytes in block `q`. -/
theorem messagePassFinalBlock : Obligations.MessagePassFinalBlock := by
  refine ⟨messagePass_nil, fun g m hm => ?nonempty, fun g m q hm => ?boundary⟩
  case nonempty =>
    have hfirst : m.length ≤ 64 ↔ (m.length + 63) / 64 - 1 = 0 := by omega
    rw [decide_eq_decide.mpr hfirst]
    exact messagePass_eq_ubi_last g (by omega) (by omega)
  case boundary =>
    rw [← hm]
    exact messagePass_eq_ubi_last g (by omega) hm.le

/-! ### The configuration pass (R152) -/

/-- The compression of the configuration block, run by the kernel: 72 rounds on literals. -/
theorem ubi_cfgBlock : ubi zero8 cfgBlock 32 .cfg true true = iv := by
  decide +kernel

/-- Settles O50: the configuration pass gives `IV`, whose definition lists the eight values. -/
theorem ivIsTheConfigurationPass : Obligations.IvIsTheConfigurationPass :=
  ⟨ubi_cfgBlock.symm, rfl⟩

end Sys2Proof.Machine
end

