-- ==== Sys2Proof/Proofs/UpdateByte.lean ====
section
/-!
PROOFS. UPDATE_BYTE (44_engine_commands.md section 2, R182): its three outcomes and its frame.
-/

namespace Sys2Proof

/-- The encoding of UPDATE_BYTE is the octet `0x20`, then the message byte (R61). -/
theorem encode_updateByte_eq_append (b : BitVec 8) :
    encode (.updateByte b) = (0x20 : BitVec 8) ++ b := by
  apply BitVec.eq_of_toNat_eq
  rw [toNat_encode_updateByte, BitVec.toNat_append, ← Nat.shiftLeft_add_eq_or_of_lt b.isLt]
  rfl

end Sys2Proof

namespace Sys2Proof.Machine

/-- A position that passes the check of R222 is stored exactly in the 128 bits of `POS`. -/
theorem toNat_ofNat_position {p : Nat} (hp : p < 2 ^ 96) : (BitVec.ofNat 128 p).toNat = p := by
  rw [BitVec.toNat_ofNat, Nat.mod_eq_of_lt (by omega)]

/-- With room in the buffer the 7 bits of `CNT` hold the next count. -/
theorem toNat_cnt_add_one {c : BitVec 7} (hc : c.toNat < 64) : (c + 1).toNat = c.toNat + 1 := by
  bv_omega

/-- The first error since RESET leaves its own code in `ERR_CODE` (R224). -/
theorem raise_positionOverflow_errCode {s : State} (he : s.err = false) :
    (raise .positionOverflow s).errCode = 0x02 := by
  rw [raise_errCode, he]; rfl

/-- Settles O3: one outcome of the command for each clause, read field by field. -/
theorem updateByteAbsorbsOneByte : Obligations.UpdateByteAbsorbsOneByte := by
  intro b s
  refine ⟨encode_updateByte_eq_append b, fun he =>
    ⟨fun hc => ?room, fun hc hp => ?commit, fun hc hp => ?overflow⟩⟩
  case room =>
    exact ⟨_, execUpdateByte_room he hc b, read_write s.buf s.cnt.toNat b, toNat_cnt_add_one hc,
      rfl, rfl, rfl, rfl, ⟨rfl, rfl, rfl⟩⟩
  case commit =>
    exact ⟨_, execUpdateByte_commit he hc hp b, rfl, toNat_ofNat_position hp,
      read_write Memory.clear 0 b, rfl, rfl, rfl, ⟨rfl, rfl, rfl⟩⟩
  case overflow =>
    exact ⟨_, execUpdateByte_overflow he hc hp b, raise_h _ s, raise_buf _ s, raise_cnt _ s,
      raise_pos _ s, raise_err _ s, raise_positionOverflow_errCode he, raise_answered _ s⟩

/-- What UPDATE_BYTE can answer: the refusal of R223 or one of the three outcomes of R182. -/
theorem exec_updateByte_cases {b : BitVec 8} {s t : State} (h : exec (.updateByte b) s = .next t) :
    t = respond (.error .errorPending) s ∨
    (s.cnt.toNat < 64 ∧
      t = respond (.ok []) { s with buf := s.buf.write s.cnt.toNat b, cnt := s.cnt + 1 }) ∨
    (s.cnt.toNat = 64 ∧ s.pos.toNat + 64 < 2 ^ 96 ∧
      t = respond (.ok [])
        { commitBlock (s.pos.toNat + 64) s with buf := Memory.clear.write 0 b, cnt := 1 }) ∨
    (s.cnt.toNat = 64 ∧ t = raise .positionOverflow s) := by
  obtain ⟨⟨⟩, -⟩ | ⟨-, -, ht⟩ | ⟨_, ⟨⟩, -, hc, ht⟩ | ⟨_, ⟨⟩, -, hc, hp, ht⟩ | ⟨_, -, -, hc, -, ht⟩ |
    ⟨⟨⟩, -⟩ | ⟨⟨⟩, -⟩ | ⟨hi, -⟩ := exec_cases h
  · exact .inl ht
  · exact .inr (.inl ⟨hc, ht⟩)
  · exact .inr (.inr (.inl ⟨hc, hp, ht⟩))
  · exact .inr (.inr (.inr ⟨hc, ht⟩))
  · simp at hi

/-- Settles O4: a refusal writes no register, an append writes no STATUS and only the byte at `CNT`,
a compression happens at `CNT = 64` only, and an overflow writes STATUS only. -/
theorem updateByteFrame : Obligations.UpdateByteFrame := by
  intro b s t h
  obtain rfl | ⟨-, rfl⟩ | ⟨hc, hp, rfl⟩ | ⟨hc, rfl⟩ := exec_updateByte_cases h
  · simp
  · refine ⟨rfl, fun _ => ⟨rfl, rfl, rfl, rfl, fun a ha => ?_⟩, by simp, by simp⟩
    exact (read_write s.buf s.cnt.toNat b a).trans (if_neg ha)
  · exact ⟨rfl, fun hne => absurd hc hne, by simp, fun _ => toNat_ofNat_position hp⟩
  · exact ⟨raise_commands _ s, fun hne => absurd hc hne, by simp, by simp⟩

end Sys2Proof.Machine
end

