-- ==== Sys2Proof/Proofs/Digest.lean ====
section
/-!
PROOFS. DIGEST (44_engine_commands.md section 2, R183): its answer, and what the answer depends on.
-/

namespace Sys2Proof.Machine

theorem respond_sameRegisters (r : Response) (s : State) : s.SameRegisters (respond r s) :=
  ⟨rfl, rfl, rfl, rfl, rfl, rfl⟩

/-- Settles O6: the answer of DIGEST below the limit of R222, and its error entry from there on. -/
theorem digestAnswersFinalBlock : Obligations.DigestAnswersFinalBlock := by
  refine ⟨rfl, fun s he => ⟨fun hc hp => ?answer, fun hp => ?overflow⟩⟩
  case answer =>
    exact ⟨_, execDigest_answer he hc hp, respond_sameRegisters _ s, respond_answered _ s⟩
  case overflow =>
    exact ⟨_, execDigest_overflow he hp, raise_h _ s, raise_buf _ s, raise_cnt _ s, raise_pos _ s,
      raise_err _ s, raise_positionOverflow_errCode he, raise_answered _ s⟩

/-! ### What the response depends on -/

/-- The response of DIGEST, where it answers at all (R183, R223). -/
def digestResponse (s : State) : Response :=
  if s.err then .error .errorPending
  else if positionFits s.absorbed then .ok (digestBytes s (digestBlock s) s.absorbed)
  else .error .positionOverflow

theorem exec_digest_responses {s t : State} (h : exec .digest s = .next t) :
    t.responses = s.responses ++ [digestResponse s] := by
  obtain ⟨⟨⟩, -⟩ | ⟨-, he, rfl⟩ | ⟨_, ⟨⟩, -⟩ | ⟨_, ⟨⟩, -⟩ | ⟨_, ⟨⟩, -⟩ | ⟨-, he, -, hp, rfl⟩ |
    ⟨-, he, hp, rfl⟩ | ⟨hi, -⟩ := exec_cases h
  · rw [digestResponse, if_pos he, respond_responses]
  · rw [digestResponse, he, if_neg Bool.false_ne_true, if_pos (positionFits_iff.2 hp),
      respond_responses]
  · have hfits : ¬ positionFits s.absorbed = true := mt positionFits_iff.1 (Nat.not_lt.2 hp)
    rw [digestResponse, he, if_neg Bool.false_ne_true, if_neg hfits, raise_responses]
    rfl
  · simp at hi

/-- The final block holds the bytes below `CNT` and zeros (R183), so no other byte enters it. -/
theorem digestBlock_congr {s₁ s₂ : State} (hcnt : s₁.cnt = s₂.cnt)
    (hbuf : ∀ j, j < s₁.cnt.toNat → s₁.buf.read j = s₂.buf.read j) :
    digestBlock s₁ = digestBlock s₂ := by
  unfold digestBlock
  congr 1
  funext j
  rw [← hcnt]
  split
  · next hj => exact hbuf j hj
  · rfl

theorem digestResponse_congr {s₁ s₂ : State} (hh : s₁.h = s₂.h) (hcnt : s₁.cnt = s₂.cnt)
    (hpos : s₁.pos = s₂.pos) (herr : s₁.err = s₂.err)
    (hbuf : ∀ j, j < s₁.cnt.toNat → s₁.buf.read j = s₂.buf.read j) :
    digestResponse s₁ = digestResponse s₂ := by
  have hblock : digestBlock s₁ = digestBlock s₂ := digestBlock_congr hcnt hbuf
  have hfirst : s₁.first = s₂.first := by rw [State.first, hpos, State.first]
  have habsorbed : s₁.absorbed = s₂.absorbed := by rw [State.absorbed, hpos, hcnt, State.absorbed]
  have hbytes : digestBytes s₁ (digestBlock s₁) s₁.absorbed =
      digestBytes s₂ (digestBlock s₂) s₂.absorbed := by
    rw [digestBytes, hblock, habsorbed, hfirst, hh, digestBytes]
  rw [digestResponse, herr, hbytes, habsorbed, digestResponse]

/-- Settles O7: both states send the response computed from the fields they agree on. -/
theorem digestIgnoresBytesFromCount : Obligations.DigestIgnoresBytesFromCount := by
  intro s₁ s₂ t₁ t₂ r hh hcnt hpos herr hbuf h₁ h₂ hr
  obtain rfl : digestResponse s₁ = r := by simpa using (exec_digest_responses h₁).symm.trans hr
  rw [exec_digest_responses h₂, digestResponse_congr hh hcnt hpos herr hbuf]

end Sys2Proof.Machine
end

