-- ==== Sys2Proof/Proofs/CommandCycle.lean ====
section
/-!
PROOFS. The command cycle (44_engine_commands.md section 1, R180) and the commands without a message
byte: RESET (R181) and the length queries (R184, R185).
-/

namespace Sys2Proof.Machine

/-- Settles O2: RESET is executed in every state (R180) and writes the reset values of R31. -/
theorem resetRestoresEveryRegister : Obligations.ResetRestoresEveryRegister :=
  ⟨rfl, fun s => ⟨respond (.ok []) (resetRegisters s), rfl, rfl, read_clear, rfl, rfl, rfl, rfl,
    ⟨rfl, rfl, rfl⟩, rfl⟩⟩

/-! ### The length queries -/

/-- Both lengths are 64 (R25), so without a pending error the two queries answer alike. -/
theorem exec_lengthQuery {i : Instr} {s : State} (hi : i = .getBlockLength ∨ i = .getOutputLength)
    (he : s.err = false) : exec i s = .next (respond (.ok [0x40]) s) := by
  obtain rfl | rfl := hi
  · rw [exec, execGetBlockLength, unlessErrorPending_clear he]; rfl
  · rw [exec, execGetOutputLength, unlessErrorPending_clear he]; rfl

theorem lengthQuery_answers {i : Instr} (hi : i = .getBlockLength ∨ i = .getOutputLength)
    (s : State) :
    (s.err = false → ∃ t, exec i s = .next t ∧ s.SameRegisters t ∧
      s.Answered t (.ok [0x40]) ∧ (Response.ok [0x40]).octets = [0x00, 0x40]) ∧
    (s.err = true → ∃ t, exec i s = .next t ∧ s.SameRegisters t ∧
      s.Answered t (.error .errorPending)) := by
  have hreset : i ≠ .reset := by rintro rfl; simp at hi
  exact ⟨fun he => ⟨_, exec_lengthQuery hi he, respond_sameRegisters _ s, respond_answered _ s, rfl⟩,
    fun he => ⟨_, exec_of_pending hreset he, respond_sameRegisters _ s, respond_answered _ s⟩⟩

/-- Settles O9: the encoding, and the answers of a length query. -/
theorem getBlockLengthAnswers : Obligations.GetBlockLengthAnswers :=
  ⟨rfl, lengthQuery_answers (.inl rfl)⟩

/-- Settles O10: the encoding, and the answers of a length query. -/
theorem getOutputLengthAnswers : Obligations.GetOutputLengthAnswers :=
  ⟨rfl, lengthQuery_answers (.inr rfl)⟩

/-! ### The command cycle -/

/-- Settles O18: the equation of a step on an accepted word, for each result of the decoder. -/
theorem stepRunsDecodedCommand : Obligations.StepRunsDecodedCommand := by
  intro s w ws hw
  rw [step_accept hw]
  refine ⟨fun i hd => ?decoded, fun e hd => ?illegal⟩
  case decoded => rw [hd]
  case illegal => rw [hd]; rfl

end Sys2Proof.Machine
end

