-- ==== Sys2Proof/Proofs/Exceptions.lean ====
section
/-!
PROOFS. Errors (60_exceptions.md): the illegal words, error entry, the refusal while an error is
pending, the status of each command word, and the way out of the error state; then that every step
answers and that `POS` stays below `2^96`.
-/

namespace Sys2Proof

/-- A word is illegal exactly for one of the causes of R221. -/
theorem legal_eq_false_iff_causes (w : CmdWord) :
    w.legal = false ↔
      w.op = 0 ∨ 6 ≤ w.op.toNat ∨ w.rsv ≠ 0 ∨ (w.imm8 ≠ 0 ∧ w.op ≠ 2) := by
  rw [← Bool.not_eq_true, legal_iff_fields]
  simp only [ne_eq, BitVec.toNat_eq, BitVec.reduceToNat]
  omega

end Sys2Proof

namespace Sys2Proof.Machine

/-! ### Error entry and the refusal while an error is pending -/

/-- Settles O11: the refusal of R223 is one response and nothing else. -/
theorem pendingErrorRefusesCommands : Obligations.PendingErrorRefusesCommands :=
  fun _ s hi he =>
    ⟨_, exec_of_pending hi he, respond_sameRegisters _ s, respond_answered _ s, rfl⟩

theorem raise_errCode_of_clear {s : State} (he : s.err = false) (e : ErrorCause) :
    (raise e s).errCode = e.code := by
  rw [raise_errCode, he, if_neg Bool.false_ne_true]

theorem raise_errCode_of_pending {s : State} (he : s.err = true) (e : ErrorCause) :
    (raise e s).errCode = s.errCode := by
  rw [raise_errCode, if_pos he]

/-- Settles O12: error entry field by field, with `ERR_CODE` by whether an error is pending. -/
theorem errorEntryWritesStatusOnly : Obligations.ErrorEntryWritesStatusOnly :=
  fun e s => ⟨raise_h e s, raise_buf e s, raise_cnt e s, raise_pos e s, raise_err e s,
    fun he => raise_errCode_of_clear he e, fun he => raise_errCode_of_pending he e,
    raise_answered e s, rfl, rfl, rfl⟩

/-- Settles O13: a word with one of the causes is not legal, so its step is error entry. -/
theorem illegalWordRaisesIllegalCommand : Obligations.IllegalWordRaisesIllegalCommand := by
  intro s w ws hw hcause
  have hl : w.legal = false := (legal_eq_false_iff_causes w).2 hcause
  exact ⟨_, step_of_not_legal hw hl, raise_h _ _, raise_buf _ _, raise_cnt _ _, raise_pos _ _,
    raise_err _ _, raise_errCode _ _, raise_commands _ _, raise_responses _ _, raise_faultLog _ _⟩

/-! ### One status for each command word (R225) -/

/-- The word is a command that would need a tweak position of `2^96` or more (R222). -/
abbrev PositionOverflows (w : CmdWord) (s : State) : Prop :=
  (w.op = 0x2 ∧ s.cnt.toNat = 64 ∧ 2 ^ 96 ≤ s.pos.toNat + 64) ∨
    (w.op = 0x3 ∧ 2 ^ 96 ≤ s.pos.toNat + s.cnt.toNat)

/-- The status of a legal word: the refusal of R223, the overflow of R222, or OK. -/
def legalStatus (w : CmdWord) (s : State) : Byte :=
  if s.err = true ∧ w.op ≠ 0x1 then 0x03 else if PositionOverflows w s then 0x02 else 0x00

theorem op_encode_eq_one_iff (i : Instr) : (encode i).op = 0x1 ↔ i = .reset := by
  cases i <;> simp

theorem legalStatus_of_pending {i : Instr} {s : State} (hi : i ≠ .reset) (he : s.err = true) :
    legalStatus (encode i) s = 0x03 :=
  if_pos ⟨he, mt (op_encode_eq_one_iff i).1 hi⟩

theorem legalStatus_of_overflow {w : CmdWord} {s : State} (he : s.err = false)
    (hp : PositionOverflows w s) : legalStatus w s = 0x02 := by
  rw [legalStatus, if_neg (by simp [he]), if_pos hp]

theorem legalStatus_of_fits {w : CmdWord} {s : State} (he : s.err = false)
    (hp : ¬ PositionOverflows w s) : legalStatus w s = 0x00 := by
  rw [legalStatus, if_neg (by simp [he]), if_neg hp]

theorem positionOverflows_updateByte (b : BitVec 8) (s : State) :
    PositionOverflows (encode (.updateByte b)) s ↔ s.cnt.toNat = 64 ∧ 2 ^ 96 ≤ s.pos.toNat + 64 := by
  simp [PositionOverflows]

theorem positionOverflows_digest (s : State) :
    PositionOverflows (encode .digest) s ↔ 2 ^ 96 ≤ s.absorbed := by
  simp [PositionOverflows, State.absorbed]

/-- A command that answers sends one response, with the status R225 gives its word. -/
theorem exec_answers_legalStatus {i : Instr} {s t : State} (h : exec i s = .next t) :
    ∃ r, s.Answered t r ∧ r.status = legalStatus (encode i) s := by
  obtain ⟨rfl, rfl⟩ | ⟨hi, he, rfl⟩ | ⟨b, rfl, he, hc, rfl⟩ | ⟨b, rfl, he, -, hp, rfl⟩ |
    ⟨b, rfl, he, hc, hp, rfl⟩ | ⟨rfl, he, -, hp, rfl⟩ | ⟨rfl, he, hp, rfl⟩ |
    ⟨hi, he, rfl⟩ := exec_cases h
  · exact ⟨_, ⟨rfl, rfl, rfl⟩, by simp [legalStatus]⟩
  · exact ⟨_, respond_answered _ s, (legalStatus_of_pending hi he).symm⟩
  · have hfits : ¬ PositionOverflows (encode (.updateByte b)) s := by
      rw [positionOverflows_updateByte]; omega
    exact ⟨_, ⟨rfl, rfl, rfl⟩, (legalStatus_of_fits he hfits).symm⟩
  · have hfits : ¬ PositionOverflows (encode (.updateByte b)) s := by
      rw [positionOverflows_updateByte]; omega
    exact ⟨_, ⟨rfl, rfl, rfl⟩, (legalStatus_of_fits he hfits).symm⟩
  · have hover := (positionOverflows_updateByte b s).2 ⟨hc, hp⟩
    exact ⟨_, raise_answered _ s, (legalStatus_of_overflow he hover).symm⟩
  · have hfits := mt (positionOverflows_digest s).1 (Nat.not_le.2 hp)
    exact ⟨_, respond_answered _ s, (legalStatus_of_fits he hfits).symm⟩
  · have hover := (positionOverflows_digest s).2 hp
    exact ⟨_, raise_answered _ s, (legalStatus_of_overflow he hover).symm⟩
  · have hfits : ¬ PositionOverflows (encode i) s := by obtain rfl | rfl := hi <;> simp
    exact ⟨_, respond_answered _ s, (legalStatus_of_fits he hfits).symm⟩

/-- Settles O14: error entry for an illegal word, and the status of its command for a legal one. -/
theorem statusPriority : Obligations.StatusPriority := by
  intro s w ws hw hc
  cases hl : w.legal with
  | false => exact ⟨_, _, step_of_not_legal hw hl, raise_responses _ _, rfl⟩
  | true =>
    obtain ⟨i, hd⟩ := (decode_ok_iff_legal w).2 hl
    obtain ⟨t, ht⟩ := exec_answers i (s := withCommands ws s) hc
    obtain ⟨r, hans, hstatus⟩ := exec_answers_legalStatus ht
    rw [← eq_encode_of_decode hd] at hstatus
    exact ⟨t, r, ((stepRunsDecodedCommand s w ws hw).1 i hd).trans ht, hans.responses, hstatus⟩

/-! ### The way out of the error state (R226) -/

/-- A step on the RESET word restores the reset values and answers OK. -/
theorem step_of_reset_word {s : State} {ws : List CmdWord} (hw : s.commands = 0x1000 :: ws) :
    step s = .next (respond (.ok []) (resetRegisters (withCommands ws s))) := by
  rw [step_accept hw]
  rfl

/-- Any step but RESET's stays in the error state. -/
theorem step_err_of_pending {s t : State} (he : s.err = true)
    (hno : ¬ ∃ ws, s.commands = 0x1000 :: ws) (h : step s = .next t) : t.err = true := by
  obtain ⟨-, rfl⟩ | ⟨w, ws, e, -, -, rfl⟩ | ⟨w, ws, i, hw, hd, hx⟩ := step_cases h
  · exact he
  · exact raise_err _ _
  · have hi : i ≠ .reset := by
      rintro rfl
      obtain rfl : w = 0x1000 := eq_encode_of_decode hd
      exact hno ⟨ws, hw⟩
    cases (exec_of_pending (s := withCommands ws s) hi he).symm.trans hx
    exact he

/-- Settles O15: RESET restores the reset values, and any other step stays in the error state. -/
theorem onlyResetLeavesErrorState : Obligations.OnlyResetLeavesErrorState := by
  intro s t he h
  by_cases hreset : ∃ ws, s.commands = 0x1000 :: ws
  · obtain ⟨ws, hw⟩ := hreset
    cases (step_of_reset_word hw).symm.trans h
    exact ⟨⟨fun _ => ⟨ws, hw⟩, fun _ => rfl⟩, fun _ => ⟨rfl, read_clear, rfl, rfl, rfl⟩⟩
  · have hne : t.err ≠ false := by simp [step_err_of_pending he hreset h]
    exact ⟨iff_of_false hne hreset, fun hclear => absurd hclear hne⟩

/-! ### Every step answers, and the bounds of `CNT` and `POS` -/

/-- A command keeps `CNT` at most 64: it is kept, set to 0 or 1, or counted up from below 64 (R22). -/
theorem exec_cnt_le {i : Instr} {s t : State} (hc : s.cnt.toNat ≤ 64) (h : exec i s = .next t) :
    t.cnt.toNat ≤ 64 := by
  obtain ⟨-, rfl⟩ | ⟨-, -, rfl⟩ | ⟨b, -, -, hroom, rfl⟩ | ⟨b, -, -, -, -, rfl⟩ |
    ⟨b, -, -, -, -, rfl⟩ | ⟨-, -, -, -, rfl⟩ | ⟨-, -, -, rfl⟩ | ⟨-, -, rfl⟩ := exec_cases h
  case inr.inr.inl => exact (toNat_cnt_add_one hroom).trans_le hroom
  all_goals simp [hc]

theorem step_cnt_le {s t : State} (hc : s.cnt.toNat ≤ 64) (h : step s = .next t) :
    t.cnt.toNat ≤ 64 := by
  obtain ⟨-, rfl⟩ | ⟨w, ws, e, -, -, rfl⟩ | ⟨w, ws, i, -, -, hx⟩ := step_cases h
  · exact hc
  · rwa [raise_cnt]
  · exact exec_cnt_le (s := withCommands ws s) hc hx

/-- Settles O22: a step without a word is idle, and every word is answered. -/
theorem everyStepAnswers : Obligations.EveryStepAnswers := by
  intro s hc
  suffices h : ∃ t, step s = .next t from h.imp fun t ht => ⟨ht, step_cnt_le hc ht⟩
  cases hw : s.commands with
  | nil => exact ⟨s, step_idle hw⟩
  | cons w ws =>
    obtain ⟨t, -, ht, -⟩ := step_answers hw hc
    exact ⟨t, ht⟩

/-- Settles O30: `POS` is kept, set to 0, or set to a position that passed the check of R222. -/
theorem positionStaysBelowLimit : Obligations.PositionStaysBelowLimit := by
  intro s t hlimit h
  obtain ⟨-, hpos⟩ | ⟨ws, -, -, hpos⟩ | ⟨b, ws, -, -, -, hp, -, hpos⟩ := step_chain_cases h
  · rwa [hpos]
  · rw [hpos]; decide
  · rwa [hpos, toNat_ofNat_position hp]

end Sys2Proof.Machine
end

