-- ==== Sys2Proof/Proofs/ResetAndHazards.lean ====
section
/-!
PROOFS. The state after power-on (70_reset_and_hazards.md section 1, R250), and the fault log of a run
(section 4, R257).
-/

namespace Sys2Proof.Machine

/-- Settles O1: `State.reset` is R31's reset state, with a cleared buffer. -/
theorem powerOnState : Obligations.PowerOnState :=
  ⟨rfl, fun j _ => read_clear j, rfl, rfl, rfl, rfl, rfl, rfl⟩

/-! ### The fault log -/

/-- A response leaves an entry in the fault log exactly when its status is not OK (R257). -/
theorem Response.faults_ne_nil_iff (r : Response) : r.faults ≠ [] ↔ r.status ≠ 0x00 := by
  cases r with
  | ok p => simp
  | error e => exact iff_of_true (List.cons_ne_nil e []) e.code_ne_zero

/-- One more response, logged by its own status, keeps the log in agreement. -/
theorem State.Answered.logAgrees {s t : State} {r : Response} (ht : s.Answered t r)
    (hs : s.LogAgrees) : t.LogAgrees := by
  rw [State.LogAgrees, ht.responses, ht.faultLog, List.flatMap_append, List.flatMap_singleton]
  exact congrArg (· ++ r.faults) hs

/-- Where the log agrees with the responses, the run has gone wrong iff some response has a status
other than OK. -/
theorem State.LogAgrees.wentWrong_iff {s : State} (hs : s.LogAgrees) :
    s.wentWrong = true ↔ ∃ r ∈ s.responses, r.status ≠ 0x00 := by
  have hne : s.wentWrong = true ↔ s.faultLog ≠ [] := by simp [State.wentWrong]
  rw [hne, hs, ne_eq, List.flatMap_eq_nil_iff]
  push Not
  simp only [Response.faults_ne_nil_iff]

/-- A step that answers is idle, or it accepts a word and sends exactly one response. -/
theorem step_idle_or_answered {s t : State} (h : step s = .next t) :
    t = s ∨ ∃ ws r, (withCommands ws s).Answered t r := by
  obtain ⟨-, ht⟩ | ⟨w, ws, e, -, -, rfl⟩ | ⟨w, ws, i, -, -, hx⟩ := step_cases h
  · exact .inl ht
  · exact .inr ⟨ws, _, raise_answered _ _⟩
  · obtain ⟨r, hr, -⟩ := exec_answeredBy hx
    exact .inr ⟨ws, r, hr⟩

/-- Settles O29: an idle step keeps the log, and any other adds what its one response leaves there. -/
theorem faultLogRecordsEveryError : Obligations.FaultLogRecordsEveryError := by
  intro s t hs h
  obtain rfl | ⟨ws, r, ht⟩ := step_idle_or_answered h
  · exact ⟨hs, ⟨[], (List.append_nil _).symm⟩, hs.wentWrong_iff⟩
  · have htlog : t.LogAgrees := ht.logAgrees hs
    exact ⟨htlog, ⟨r.faults, ht.faultLog⟩, htlog.wentWrong_iff⟩

end Sys2Proof.Machine
end

