-- ==== Sys2Proof/Proofs/Invariants.lean ====
section
/-!
PROOFS. The invariants between commands (10_state.md section 5, R26): they hold after power-on, every
operation the commands share keeps them, so every step does.
-/

namespace Sys2Proof.Machine

/-- The invariants speak of the registers only. -/
theorem State.Inv.of_sameRegisters {s t : State} (hs : s.Inv) (ht : s.SameRegisters t) : t.Inv := by
  obtain ⟨-, hbuf, hcnt, hpos, herr, hcode⟩ := ht
  constructor
  case cnt_le => rw [hcnt]; exact hs.cnt_le
  case pos_blocks => rw [hpos]; exact hs.pos_blocks
  case committed_then_buffered => rw [hpos, hcnt]; exact hs.committed_then_buffered
  case unused_zero => rw [hcnt, hbuf]; exact hs.unused_zero
  case err_iff_code => rw [herr, hcode]; exact hs.err_iff_code
  case code_range => rw [hcode]; exact hs.code_range
  case buf_wf => rw [hbuf]; exact hs.buf_wf

theorem State.Inv.respond {s : State} (hs : s.Inv) (r : Response) : (respond r s).Inv :=
  hs.of_sameRegisters (respond_sameRegisters r s)

/-! ### Reset -/

theorem reset_inv : State.reset.Inv where
  cnt_le := Nat.zero_le 64
  pos_blocks := rfl
  committed_then_buffered := fun h => absurd h (Nat.lt_irrefl 0)
  unused_zero := fun j _ _ => read_nil j
  err_iff_code := iff_of_true rfl rfl
  code_range := .inl rfl
  buf_wf := reset_buf_wf

/-- RESET restores the registers of power-on (R31, R250). -/
theorem reset_sameRegisters_resetRegisters (s : State) :
    State.reset.SameRegisters (resetRegisters s) :=
  ⟨rfl, rfl, rfl, rfl, rfl, rfl⟩

/-- Settles O27: the reset values, and two empty lists. -/
theorem invariantHoldsAtReset : Obligations.InvariantHoldsAtReset :=
  ⟨reset_inv, rfl⟩

/-! ### Error entry -/

theorem ErrorCause.code_range (e : ErrorCause) : e.code = 0x01 ∨ e.code = 0x02 := by
  cases e with
  | illegalCommand => exact .inl rfl
  | positionOverflow => exact .inr rfl

/-- Error entry leaves an error's code behind: the pending one, or the new one (R224). -/
theorem raise_errCode_range {s : State} (hs : s.Inv) (e : ErrorCause) :
    (raise e s).errCode = 0x01 ∨ (raise e s).errCode = 0x02 := by
  cases he : s.err with
  | false => rw [raise_errCode_of_clear he]; exact e.code_range
  | true =>
    have hne : s.errCode ≠ 0x00 := mt hs.err_iff_code.2 (by simp [he])
    rw [raise_errCode_of_pending he]
    exact hs.code_range.resolve_left hne

theorem State.Inv.raise {s : State} (hs : s.Inv) (e : ErrorCause) : (raise e s).Inv := by
  have hrange := raise_errCode_range hs e
  constructor
  case cnt_le => rw [raise_cnt]; exact hs.cnt_le
  case pos_blocks => rw [raise_pos]; exact hs.pos_blocks
  case committed_then_buffered => rw [raise_pos, raise_cnt]; exact hs.committed_then_buffered
  case unused_zero => rw [raise_cnt, raise_buf]; exact hs.unused_zero
  case err_iff_code =>
    have hne : (Machine.raise e s).errCode ≠ 0x00 := by
      obtain h | h := hrange <;> rw [h] <;> decide
    exact iff_of_false (by simp) hne
  case code_range => exact .inr hrange
  case buf_wf => rw [raise_buf]; exact hs.buf_wf

/-! ### UPDATE_BYTE -/

/-- A byte put at `CNT` leaves only zeros from the next count on. -/
theorem State.Inv.append {s : State} (hs : s.Inv) (hc : s.cnt.toNat < 64) (b : Byte) :
    State.Inv { s with buf := s.buf.write s.cnt.toNat b, cnt := s.cnt + 1 } := by
  have hcnt := toNat_cnt_add_one hc
  refine ⟨hcnt.trans_le hc, hs.pos_blocks, fun _ => hcnt ▸ Nat.le_add_left 1 _, fun j hj hlt => ?_,
    hs.err_iff_code, hs.code_range, write_wf hs.buf_wf hc b⟩
  have hj : s.cnt.toNat + 1 ≤ j := hcnt ▸ hj
  exact (read_write s.buf s.cnt.toNat b j).trans
    ((if_neg (by omega)).trans (hs.unused_zero j (by omega) hlt))

/-- After a compression `POS` is one block further and the buffer holds the new byte alone. -/
theorem State.Inv.commit {s : State} (hs : s.Inv) (hp : s.pos.toNat + 64 < 2 ^ 96) (b : Byte) :
    State.Inv { commitBlock (s.pos.toNat + 64) s with buf := Memory.clear.write 0 b, cnt := 1 } := by
  refine ⟨by simp, ?blocks, fun _ => Nat.le_refl 1, fun j hj _ => ?_, hs.err_iff_code,
    hs.code_range, write_wf clear_wf (by decide) b⟩
  case blocks =>
    have hblocks := hs.pos_blocks
    rw [commitBlock_pos, toNat_ofNat_position hp]
    omega
  have hj : 1 ≤ j := hj
  exact (read_write Memory.clear 0 b j).trans (if_neg (by omega))

/-! ### Steps -/

theorem exec_keeps_inv {i : Instr} {s t : State} (hs : s.Inv) (h : exec i s = .next t) : t.Inv := by
  obtain ⟨-, rfl⟩ | ⟨-, -, rfl⟩ | ⟨b, -, -, hc, rfl⟩ | ⟨b, -, -, -, hp, rfl⟩ | ⟨b, -, -, -, -, rfl⟩ |
    ⟨-, -, -, -, rfl⟩ | ⟨-, -, -, rfl⟩ | ⟨-, -, rfl⟩ := exec_cases h
  · exact (reset_inv.of_sameRegisters (reset_sameRegisters_resetRegisters s)).respond _
  · exact hs.respond _
  · exact (hs.append hc b).respond _
  · exact (hs.commit hp b).respond _
  · exact hs.raise _
  · exact hs.respond _
  · exact hs.raise _
  · exact hs.respond _

theorem withCommands_sameRegisters (ws : List CmdWord) (s : State) :
    s.SameRegisters (withCommands ws s) :=
  ⟨rfl, rfl, rfl, rfl, rfl, rfl⟩

/-- Settles O28: a step is idle, takes an error, or runs a command on the state without its word. -/
theorem stepKeepsInvariant : Obligations.StepKeepsInvariant := by
  intro s t hs h
  have haccepted : ∀ ws, (withCommands ws s).Inv := fun ws =>
    hs.of_sameRegisters (withCommands_sameRegisters ws s)
  obtain ⟨-, rfl⟩ | ⟨w, ws, e, -, -, rfl⟩ | ⟨w, ws, i, -, -, hx⟩ := step_cases h
  · exact hs
  · exact (haccepted ws).raise _
  · exact exec_keeps_inv (haccepted ws) hx

end Sys2Proof.Machine
end

