-- ==== Sys2Proof/Proofs/CommandLaws.lean ====
section
/-!
PROOFS. Laws of single commands: an UPDATE_BYTE counts its byte (10_state.md R28), DIGEST is
repeatable (44_engine_commands.md R191), the first error's code is kept (60_exceptions.md R227), and
the counts that never occur (log 5).
-/

namespace Sys2Proof.Machine

/-! ### The number of absorbed bytes (R28) -/

theorem State.SameRegisters.absorbed {s t : State} (h : s.SameRegisters t) :
    t.absorbed = s.absorbed := by
  rw [State.absorbed, h.pos, h.cnt, State.absorbed]

theorem raise_absorbed (e : ErrorCause) (s : State) : (raise e s).absorbed = s.absorbed := by
  rw [State.absorbed, raise_pos, raise_cnt, State.absorbed]

/-- An UPDATE_BYTE sends an error response and absorbs nothing, or answers OK and absorbs a byte. -/
theorem exec_updateByte_absorbed {b : BitVec 8} {s t : State}
    (h : exec (.updateByte b) s = .next t) :
    (∃ e, s.Answered t (.error e) ∧ t.absorbed = s.absorbed) ∨
    (s.Answered t (.ok []) ∧ t.absorbed = s.absorbed + 1) := by
  obtain rfl | ⟨hc, rfl⟩ | ⟨hc, hp, rfl⟩ | ⟨-, rfl⟩ := exec_updateByte_cases h
  · exact .inl ⟨_, respond_answered _ s, (respond_sameRegisters _ s).absorbed⟩
  · exact .inr ⟨⟨rfl, rfl, rfl⟩, congrArg (s.pos.toNat + ·) (toNat_cnt_add_one hc)⟩
  · have hpos : (BitVec.ofNat 128 (s.pos.toNat + 64)).toNat = s.pos.toNat + s.cnt.toNat := by
      rw [toNat_ofNat_position hp, hc]
    exact .inr ⟨⟨rfl, rfl, rfl⟩, congrArg (· + 1) hpos⟩
  · exact .inl ⟨_, raise_answered _ s, raise_absorbed _ s⟩

/-- Settles O5: the status tells the two answers apart. -/
theorem updateByteCountsOneByte : Obligations.UpdateByteCountsOneByte := by
  intro b s t r _ h hr
  obtain ⟨e, hans, habs⟩ | ⟨hans, habs⟩ := exec_updateByte_absorbed h
  · obtain rfl : .error e = r := by simpa using hans.responses.symm.trans hr
    rw [habs, status_error, if_neg e.code_ne_zero, Nat.add_zero]
  · obtain rfl : .ok [] = r := by simpa using hans.responses.symm.trans hr
    rw [habs, status_ok, if_pos rfl]

/-! ### DIGEST twice (R191 item 1) -/

/-- A DIGEST that answers a payload found no error, the valid bytes inside the buffer and a position
that fits; it does nothing but send the digest. -/
theorem exec_digest_ok {s t : State} {payload : List Byte} (h : exec .digest s = .next t)
    (hr : t.responses = s.responses ++ [.ok payload]) :
    s.err = false ∧ s.cnt.toNat ≤ 64 ∧ s.absorbed < 2 ^ 96 ∧
      payload = digestBytes s (digestBlock s) s.absorbed ∧ t = respond (.ok payload) s := by
  obtain ⟨⟨⟩, -⟩ | ⟨-, -, rfl⟩ | ⟨_, ⟨⟩, -⟩ | ⟨_, ⟨⟩, -⟩ | ⟨_, ⟨⟩, -⟩ | ⟨-, he, hc, hp, rfl⟩ |
    ⟨-, -, -, rfl⟩ | ⟨hi, -⟩ := exec_cases h
  · simp at hr
  · obtain rfl : digestBytes s (digestBlock s) s.absorbed = payload := by simpa using hr
    exact ⟨he, hc, hp, rfl, rfl⟩
  · simp at hr
  · simp at hi

/-- Settles O8: sending a response changes nothing that the digest reads, so the second DIGEST sends
what the first one sent. -/
theorem digestRepeatsSameBytes : Obligations.DigestRepeatsSameBytes := by
  intro s t payload h hr
  obtain ⟨he, hc, hp, hpayload, rfl⟩ := exec_digest_ok h hr
  have hlength : payload.length = 64 := by rw [hpayload, digestBytes, Vector.length_toList]
  have hagain := execDigest_answer (s := respond (.ok payload) s) he hc hp
  rw [digestBytes_respond, ← hpayload] at hagain
  exact ⟨hlength, _, hagain, rfl, respond_sameRegisters _ _⟩

/-! ### The first error's code (R227) -/

/-- Settles O16: with an error pending, a step is idle, logs an illegal word, restores the reset
values or refuses a command. -/
theorem firstErrorCodeIsKept : Obligations.FirstErrorCodeIsKept := by
  intro s t he h
  obtain ⟨-, rfl⟩ | ⟨w, ws, e, -, -, rfl⟩ | ⟨w, ws, i, -, -, hx⟩ := step_cases h
  · simp
  · exact ⟨fun _ => raise_errCode_of_pending (s := withCommands ws s) he _,
      by simp [ErrorCause.status]⟩
  · by_cases hi : i = .reset
    · subst hi
      cases hx
      simp
    · cases (exec_of_pending (s := withCommands ws s) hi he).symm.trans hx
      exact ⟨fun _ => rfl, by simp [withCommands]⟩

/-! ### Counts above 64 (log 5) -/

/-- Settles O23: the byte at `CNT` and the bytes below it would lie outside the buffer. -/
theorem bufferRangeStops : Obligations.BufferRangeStops := fun _ he hc =>
  ⟨execUpdateByte_out he hc, execDigest_out he hc⟩

end Sys2Proof.Machine
end

