-- ==== Sys2Proof/Proofs/SerializationRoundTrip.lean ====
section
/-!
PROOFS. Words to bytes and back (41_word_primitives.md, corner cases of R101 and R103), byte by byte.
-/

namespace Sys2Proof.Machine

theorem load64le_store64le (w : Word) : load64le (store64le w) 0 = w := by
  apply word_ext
  intro k
  rw [extractLsb'_load64le, ← getElem_store64le]
  simp only [Nat.zero_add, Fin.getElem_fin]

theorem getElem_blockWords (b : Block) (i : Fin 8) :
    (blockWords b)[i] = load64le b (8 * i.val) := by
  simp only [blockWords, Fin.getElem_fin, Vector.getElem_ofFn]

theorem blockWords_wordsToBytes (w : Words) : blockWords (wordsToBytes w) = w := by
  apply Vector.ext
  intro i hi
  apply word_ext
  intro k
  rw [← Fin.getElem_fin (blockWords _) ⟨i, hi⟩, getElem_blockWords, extractLsb'_load64le,
    getElem_wordsToBytes, getElem_store64le]
  rfl

theorem wordsToBytes_blockWords (b : Block) : wordsToBytes (blockWords b) = b := by
  apply Vector.ext
  intro j hj
  have hbyte := getElem_wordsToBytes (blockWords b) ⟨j / 8, by omega⟩ ⟨j % 8, by omega⟩
  rw [getElem_store64le, getElem_blockWords, extractLsb'_load64le] at hbyte
  simpa only [Nat.div_add_mod] using hbyte

/-- Settles O43: one lemma for each round trip. -/
theorem serializationRoundTrip : Obligations.SerializationRoundTrip :=
  ⟨load64le_store64le, blockWords_wordsToBytes, wordsToBytes_blockWords⟩

end Sys2Proof.Machine
end

