-- ==== Sys2Proof/Proofs/Absorbing.lean ====
section
/-!
PROOFS. The state after a message (44_engine_commands.md section 3, R187): what every command but
RESET makes of a state that has absorbed a message, and DIGEST's answer there (R190).
-/

namespace Sys2Proof.Machine

/-! ### The blocks of a message -/

/-- The blocks of a message of `n` bytes that are compressed before its end is known: `q` of R187. -/
def committedBlocks (n : Nat) : Nat := (n + 63) / 64 - 1

theorem committedBlocks_le (n : Nat) : 64 * committedBlocks n ≤ n := by
  unfold committedBlocks; omega

theorem le_committedBlocks_succ (n : Nat) : n ≤ 64 * (committedBlocks n + 1) := by
  unfold committedBlocks; omega

/-- With room in the last block, one more byte is held in that block. -/
theorem committedBlocks_succ_of_room {n : Nat} (h : n - 64 * committedBlocks n < 64) :
    committedBlocks (n + 1) = committedBlocks n := by
  unfold committedBlocks at h ⊢; omega

/-- One more byte after a full last block makes that block a committed one. -/
theorem committedBlocks_succ_of_full {n : Nat} (h : n - 64 * committedBlocks n = 64) :
    committedBlocks (n + 1) = committedBlocks n + 1 := by
  unfold committedBlocks at h ⊢; omega

/-- The bytes held back: the message from its first uncommitted block on. -/
def heldBytes (m : List Byte) : List Byte := m.drop (64 * committedBlocks m.length)

theorem length_heldBytes (m : List Byte) :
    (heldBytes m).length = m.length - 64 * committedBlocks m.length :=
  List.length_drop

theorem heldBytes_append_of_room {m : List Byte} (h : (heldBytes m).length < 64) (b : Byte) :
    heldBytes (m ++ [b]) = heldBytes m ++ [b] := by
  rw [length_heldBytes] at h
  rw [heldBytes, List.length_append, List.length_singleton, committedBlocks_succ_of_room h,
    List.drop_append_of_le_length (committedBlocks_le _), heldBytes]

theorem heldBytes_append_of_full {m : List Byte} (h : (heldBytes m).length = 64) (b : Byte) :
    heldBytes (m ++ [b]) = [b] := by
  rw [length_heldBytes] at h
  rw [heldBytes, List.length_append, List.length_singleton, committedBlocks_succ_of_full h,
    List.drop_append, List.drop_eq_nil_of_le (by omega),
    show 64 * (committedBlocks m.length + 1) - m.length = 0 by omega]
  rfl

theorem getD_concat (l : List Byte) (b : Byte) (j : Nat) :
    (l ++ [b]).getD j 0x00 = if j = l.length then b else l.getD j 0x00 := by
  obtain hj | rfl | hj := Nat.lt_trichotomy j l.length
  · rw [if_neg hj.ne, List.getD_append _ _ _ _ hj]
  · simp
  · rw [if_neg hj.ne', List.getD_eq_default _ _ (by simp; omega), List.getD_eq_default _ _ hj.le]

/-! ### The chaining value -/

/-- The chaining value after the committed blocks of a message: `G_q` of R187. -/
def committedChain (m : List Byte) : Words := chainAfter iv m (committedBlocks m.length)

theorem committedChain_append_of_room {m : List Byte} (h : (heldBytes m).length < 64) (b : Byte) :
    committedChain (m ++ [b]) = committedChain m := by
  rw [length_heldBytes] at h
  rw [committedChain, List.length_append, List.length_singleton, committedBlocks_succ_of_room h,
    chainAfter_append _ _ _ _ (committedBlocks_le _), committedChain]

/-- The full held block is compressed as a block that is not the last one. -/
theorem committedChain_append_of_full {m : List Byte} (h : (heldBytes m).length = 64) (b : Byte) :
    committedChain (m ++ [b]) =
      ubi (committedChain m) (padBlock (heldBytes m)) (64 * (committedBlocks m.length + 1)) .msg
        (committedBlocks m.length == 0) false := by
  rw [length_heldBytes] at h
  rw [committedChain, List.length_append, List.length_singleton, committedBlocks_succ_of_full h,
    chainAfter_append _ _ _ _ (by omega), chainAfter,
    messageBlock_eq_padBlock_drop (le_committedBlocks_succ _), committedChain, heldBytes]

theorem padBlock_nil : padBlock [] = zeroBlock := by
  apply Vector.ext
  intro i hi
  simp [padBlock, zeroBlock]

/-- The message pass ends with the held bytes as its final block, also for the empty message (R154,
R155). -/
theorem messagePass_eq_final_ubi (m : List Byte) :
    messagePass iv m =
      ubi (committedChain m) (padBlock (heldBytes m)) m.length .msg
        (decide (committedBlocks m.length = 0)) true := by
  cases m with
  | nil => rw [messagePass_nil, ← padBlock_nil]; rfl
  | cons b bs =>
    have hlow : 64 * committedBlocks (b :: bs).length < (b :: bs).length := by
      simp only [List.length_cons, committedBlocks]; omega
    exact messagePass_eq_ubi_last iv hlow (le_committedBlocks_succ _)

/-! ### The state after a message -/

/-- The registers after RESET and the bytes of `m` (R187), with the buffer in canonical form. -/
structure State.HasAbsorbed (s : State) (m : List Byte) : Prop where
  h : s.h = committedChain m
  pos : s.pos.toNat = 64 * committedBlocks m.length
  cnt : s.cnt.toNat = (heldBytes m).length
  read : ∀ j, s.buf.read j = (heldBytes m).getD j 0x00
  buf_wf : s.buf.wf = true
  err : s.err = false
  errCode : s.errCode = 0x00

theorem State.HasAbsorbed.of_sameRegisters {s t : State} {m : List Byte} (hs : s.HasAbsorbed m)
    (ht : s.SameRegisters t) : t.HasAbsorbed m where
  h := ht.h.trans hs.h
  pos := by rw [ht.pos, hs.pos]
  cnt := by rw [ht.cnt, hs.cnt]
  read := by rw [ht.buf]; exact hs.read
  buf_wf := by rw [ht.buf]; exact hs.buf_wf
  err := ht.err.trans hs.err
  errCode := ht.errCode.trans hs.errCode

/-- The message determines every register: the canonical buffer is determined by its bytes. -/
theorem State.HasAbsorbed.sameRegisters {s t : State} {m : List Byte} (hs : s.HasAbsorbed m)
    (ht : t.HasAbsorbed m) : s.SameRegisters t where
  h := ht.h.trans hs.h.symm
  buf := memory_ext ht.buf_wf hs.buf_wf fun j => (ht.read j).trans (hs.read j).symm
  cnt := BitVec.eq_of_toNat_eq (ht.cnt.trans hs.cnt.symm)
  pos := BitVec.eq_of_toNat_eq (ht.pos.trans hs.pos.symm)
  err := ht.err.trans hs.err.symm
  errCode := ht.errCode.trans hs.errCode.symm

theorem reset_hasAbsorbed_nil : State.reset.HasAbsorbed [] :=
  ⟨rfl, rfl, rfl, fun _ => rfl, rfl, rfl, rfl⟩

theorem State.HasAbsorbed.cnt_le {s : State} {m : List Byte} (hs : s.HasAbsorbed m) :
    s.cnt.toNat ≤ 64 := by
  have hm := le_committedBlocks_succ m.length
  rw [hs.cnt, length_heldBytes]
  omega

theorem State.HasAbsorbed.absorbed {s : State} {m : List Byte} (hs : s.HasAbsorbed m) :
    s.absorbed = m.length := by
  rw [State.absorbed, hs.pos, hs.cnt, length_heldBytes,
    Nat.add_sub_cancel' (committedBlocks_le _)]

theorem State.HasAbsorbed.first {s : State} {m : List Byte} (hs : s.HasAbsorbed m) :
    s.first = decide (committedBlocks m.length = 0) := by
  have hpos : s.pos = 0 ↔ committedBlocks m.length = 0 := by
    simp only [BitVec.toNat_eq, hs.pos, BitVec.reduceToNat]
    omega
  rw [State.first, beq_eq_decide, decide_eq_decide.2 hpos]

/-! ### UPDATE_BYTE -/

theorem State.HasAbsorbed.append {s : State} {m : List Byte} (hs : s.HasAbsorbed m)
    (hc : s.cnt.toNat < 64) (b : Byte) :
    State.HasAbsorbed { s with buf := s.buf.write s.cnt.toNat b, cnt := s.cnt + 1 } (m ++ [b]) := by
  have hroom : (heldBytes m).length < 64 := hs.cnt ▸ hc
  have hheld := heldBytes_append_of_room hroom b
  constructor
  case h => rw [committedChain_append_of_room hroom]; exact hs.h
  case pos =>
    rw [length_heldBytes] at hroom
    rw [List.length_append, List.length_singleton, committedBlocks_succ_of_room hroom]
    exact hs.pos
  case cnt =>
    rw [hheld, List.length_append, ← hs.cnt]
    exact toNat_cnt_add_one hc
  case read =>
    intro j
    rw [read_write, hs.read, hs.cnt, hheld, getD_concat]
  case buf_wf => exact write_wf hs.buf_wf hc b
  case err => exact hs.err
  case errCode => exact hs.errCode

theorem State.HasAbsorbed.commit {s : State} {m : List Byte} (hs : s.HasAbsorbed m)
    (hc : s.cnt.toNat = 64) (hp : s.pos.toNat + 64 < 2 ^ 96) (b : Byte) :
    State.HasAbsorbed
      { commitBlock (s.pos.toNat + 64) s with buf := Memory.clear.write 0 b, cnt := 1 }
      (m ++ [b]) := by
  have hfull : (heldBytes m).length = 64 := hs.cnt ▸ hc
  have hheld := heldBytes_append_of_full hfull b
  have hblock : blockRead s.buf = padBlock (heldBytes m) :=
    congrArg Vector.ofFn (funext fun j => hs.read j.val)
  have hpos : s.pos.toNat + 64 = 64 * (committedBlocks m.length + 1) := by rw [hs.pos]; omega
  constructor
  case h =>
    rw [committedChain_append_of_full hfull, ← hpos, ← hblock, ← hs.h, beq_eq_decide, ← hs.first]
    rfl
  case pos =>
    rw [length_heldBytes] at hfull
    rw [List.length_append, List.length_singleton, committedBlocks_succ_of_full hfull, ← hpos]
    exact toNat_ofNat_position hp
  case cnt => rw [hheld]; rfl
  case read =>
    intro j
    rw [read_write, hheld, ← List.nil_append [b], getD_concat]
    rfl
  case buf_wf => exact write_wf clear_wf (by decide) b
  case err => exact hs.err
  case errCode => exact hs.errCode

/-! ### DIGEST -/

theorem State.HasAbsorbed.digestBlock {s : State} {m : List Byte} (hs : s.HasAbsorbed m) :
    digestBlock s = padBlock (heldBytes m) := by
  unfold Machine.digestBlock padBlock
  congr 1
  funext j
  rw [hs.read, hs.cnt]
  split
  · rfl
  · next hj => exact (List.getD_eq_default _ _ (Nat.le_of_not_lt hj)).symm

/-- The digest bytes of a state are the reference digest of the message it has absorbed (R190). -/
theorem State.HasAbsorbed.digestBytes {s : State} {m : List Byte} (hs : s.HasAbsorbed m) :
    digestBytes s (Machine.digestBlock s) s.absorbed = (skein512_512 m).toList := by
  rw [Machine.digestBytes, hs.digestBlock, hs.absorbed, hs.first, hs.h,
    ← messagePass_eq_final_ubi, skein512_512]

/-! ### Every command but RESET -/

/-- The response of a command other than RESET after the message `m`. -/
def answerAfter (m : List Byte) : Instr → Response
  | .reset => .ok []
  | .updateByte _ => .ok []
  | .digest => .ok (skein512_512 m).toList
  | .getBlockLength => .ok [0x40]
  | .getOutputLength => .ok [0x40]

/-- A command that only sends a response leaves the message as it is. -/
theorem State.HasAbsorbed.respond {s : State} {m : List Byte} (hs : s.HasAbsorbed m)
    (r : Response) : State.HasAbsorbed (respond r s) m :=
  hs.of_sameRegisters (respond_sameRegisters r s)

theorem exec_updateByte_hasAbsorbed {s : State} {m : List Byte} (hs : s.HasAbsorbed m) (b : Byte)
    (hm : m.length + 1 < 2 ^ 96) :
    ∃ t, exec (.updateByte b) s = .next t ∧ t.HasAbsorbed (m ++ [b]) ∧ s.Answered t (.ok []) := by
  obtain hc | hc := Nat.lt_or_eq_of_le hs.cnt_le
  · exact ⟨_, execUpdateByte_room hs.err hc b, (hs.append hc b).respond _, ⟨rfl, rfl, rfl⟩⟩
  · have hp : s.pos.toNat + 64 < 2 ^ 96 := by
      have habs : s.pos.toNat + s.cnt.toNat = m.length := hs.absorbed
      omega
    exact ⟨_, execUpdateByte_commit hs.err hc hp b, (hs.commit hc hp b).respond _, ⟨rfl, rfl, rfl⟩⟩

theorem exec_digest_hasAbsorbed {s : State} {m : List Byte} (hs : s.HasAbsorbed m)
    (hm : m.length < 2 ^ 96) :
    exec .digest s = .next (respond (.ok (skein512_512 m).toList) s) := by
  rw [← hs.digestBytes]
  exact execDigest_answer hs.err hs.cnt_le (hs.absorbed ▸ hm)

/-- A command extends the message by the byte it carries and answers what R182 to R185 say. -/
theorem exec_hasAbsorbed {i : Instr} {s : State} {m : List Byte} (hi : i ≠ .reset)
    (hs : s.HasAbsorbed m) (hm : (m ++ commandBytes i).length < 2 ^ 96) :
    ∃ t, exec i s = .next t ∧ t.HasAbsorbed (m ++ commandBytes i) ∧
      s.Answered t (answerAfter m i) := by
  rw [List.length_append] at hm
  cases i with
  | reset => exact absurd rfl hi
  | updateByte b => exact exec_updateByte_hasAbsorbed hs b hm
  | digest =>
    rw [commandBytes, List.append_nil]
    exact ⟨_, exec_digest_hasAbsorbed hs hm, hs.respond _, respond_answered _ s⟩
  | getBlockLength =>
    rw [commandBytes, List.append_nil]
    exact ⟨_, exec_lengthQuery (.inl rfl) hs.err, hs.respond _, respond_answered _ s⟩
  | getOutputLength =>
    rw [commandBytes, List.append_nil]
    exact ⟨_, exec_lengthQuery (.inr rfl) hs.err, hs.respond _, respond_answered _ s⟩

end Sys2Proof.Machine
end

