-- ==== Sys2Proof/Proofs/Sequences.lean ====
section
/-!
PROOFS. Sequences of commands (44_engine_commands.md section 3, R186-R191) and the run after RESET
(70_reset_and_hazards.md section 1, R251).
-/

namespace Sys2Proof.Machine

/-! ### Runs of commands -/

theorem execWord_encode (i : Instr) (s : State) : execWord (encode i) s = exec i s := by
  rw [execWord, decode_encode]

theorem runWords_encode_cons {i : Instr} {s t : State} (h : exec i s = .next t)
    (ws : List CmdWord) :
    runWords (encode i :: ws) s = runWords ws t := by
  rw [runWords_cons, execWord_encode, h, thenRun]

/-- A run that begins with RESET is the run of the rest from the reset values (R181). -/
theorem runWords_reset_cons (ws : List CmdWord) (s : State) :
    runWords (0x1000 :: ws) s = runWords ws (respond (.ok []) (resetRegisters s)) :=
  runWords_encode_cons (i := .reset) rfl ws

/-- The responses to commands without RESET that follow the message `m`. -/
def answersAfter : List Byte → List Instr → List Response
  | _, [] => []
  | m, i :: is => answerAfter m i :: answersAfter (m ++ commandBytes i) is

@[simp] theorem answersAfter_nil (m : List Byte) : answersAfter m [] = [] := rfl

theorem answersAfter_append (m : List Byte) (is js : List Instr) :
    answersAfter m (is ++ js) =
      answersAfter m is ++ answersAfter (m ++ is.flatMap commandBytes) js := by
  induction is generalizing m with
  | nil => simp
  | cons i is ih => simp [answersAfter, ih]

theorem faults_answerAfter (m : List Byte) (i : Instr) : (answerAfter m i).faults = [] := by
  cases i <;> rfl

/-- Commands without RESET extend the message by the bytes they carry, and every one is answered OK
with what its place in the message gives. -/
theorem run_hasAbsorbed {is : List Instr} {s : State} {m : List Byte} (hno : .reset ∉ is)
    (hs : s.HasAbsorbed m) (hm : (m ++ is.flatMap commandBytes).length < 2 ^ 96) :
    ∃ t, runWords (is.map encode) s = .next t ∧ t.HasAbsorbed (m ++ is.flatMap commandBytes) ∧
      t.responses = s.responses ++ answersAfter m is ∧ t.faultLog = s.faultLog := by
  induction is generalizing s m with
  | nil =>
    rw [List.flatMap_nil, List.append_nil, answersAfter_nil, List.append_nil]
    exact ⟨_, runWords_nil s, hs.of_sameRegisters (withCommands_sameRegisters [] s), rfl, rfl⟩
  | cons i is ih =>
    obtain ⟨hi, hno⟩ : .reset ≠ i ∧ .reset ∉ is := by simpa using hno
    rw [List.flatMap_cons, ← List.append_assoc] at hm ⊢
    have hfirst : (m ++ commandBytes i).length < 2 ^ 96 := by
      rw [List.length_append] at hm; omega
    obtain ⟨t, ht, habs, hans⟩ := exec_hasAbsorbed hi.symm hs hfirst
    obtain ⟨u, hu, habs', hresp, hlog⟩ := ih hno habs hm
    refine ⟨u, (runWords_encode_cons ht _).trans hu, habs', ?responses, ?faultLog⟩
    case responses => rw [hresp, hans.responses, answersAfter, List.append_assoc]; rfl
    case faultLog => rw [hlog, hans.faultLog, faults_answerAfter, List.append_nil]

/-- The same from any state with a RESET in front (R181, R187). -/
theorem run_reset_hasAbsorbed {is : List Instr} (hno : .reset ∉ is)
    (hm : (is.flatMap commandBytes).length < 2 ^ 96) (s : State) :
    ∃ t, runWords (0x1000 :: is.map encode) s = .next t ∧ t.HasAbsorbed (is.flatMap commandBytes) ∧
      t.responses = s.responses ++ .ok [] :: answersAfter [] is ∧ t.faultLog = s.faultLog := by
  have hreset : (respond (.ok []) (resetRegisters s)).HasAbsorbed [] :=
    (reset_hasAbsorbed_nil.of_sameRegisters (reset_sameRegisters_resetRegisters s)).respond _
  obtain ⟨t, ht, habs, hresp, hlog⟩ := run_hasAbsorbed hno hreset hm
  refine ⟨t, (runWords_reset_cons _ s).trans ht, habs, ?responses, ?faultLog⟩
  case responses => rw [hresp, respond_responses, resetRegisters_responses, List.append_assoc]; rfl
  case faultLog => rw [hlog, respond_faultLog, resetRegisters_faultLog, faults_ok, List.append_nil]

/-! ### One UPDATE_BYTE per byte -/

/-- The commands of `UPDATE` (R74). -/
def updates (m : List Byte) : List Instr := m.map .updateByte

@[simp] theorem map_encode_updates (m : List Byte) : (updates m).map encode = updateWords m :=
  List.map_map

@[simp] theorem reset_not_mem_updates (m : List Byte) : .reset ∉ updates m := by
  simp [updates]

@[simp] theorem flatMap_commandBytes_updates (m : List Byte) :
    (updates m).flatMap commandBytes = m := by
  rw [updates, List.flatMap_map]
  exact List.flatMap_singleton' m

@[simp] theorem answersAfter_updates (m x : List Byte) :
    answersAfter m (updates x) = List.replicate x.length (.ok []) := by
  induction x generalizing m with
  | nil => rfl
  | cons b bs ih => exact congrArg (.ok [] :: ·) (ih (m ++ [b]))

/-- A DIGEST does not extend the message (R183, R186). -/
@[simp] theorem answersAfter_digest_cons (m : List Byte) (is : List Instr) :
    answersAfter m (.digest :: is) = .ok (skein512_512 m).toList :: answersAfter m is := by
  rw [answersAfter, commandBytes, List.append_nil, answerAfter]

@[simp] theorem commandBytes_digest : commandBytes .digest = [] := rfl

@[simp] theorem encode_digest : encode .digest = 0x3000 := rfl

/-- Settles O34: the state that has absorbed `m`, read field by field. -/
theorem stateAfterAbsorbing : Obligations.StateAfterAbsorbing := by
  intro m s hm
  have hrun := run_reset_hasAbsorbed (is := updates m) (by simp) (by simpa using hm) s
  simp only [map_encode_updates, flatMap_commandBytes_updates, answersAfter_updates,
    ← List.replicate_succ] at hrun
  obtain ⟨t, ht, habs, hresp, -⟩ := hrun
  exact ⟨t, ht, habs.pos, habs.cnt.trans (length_heldBytes m), habs.read, habs.h, habs.err,
    habs.errCode, hresp⟩

/-- Settles O52: both runs absorb the same message, which determines the registers. -/
theorem interleavedReadersChangeNothing : Obligations.InterleavedReadersChangeNothing := by
  intro cs s hno hm
  have hrun := run_reset_hasAbsorbed (is := updates (cs.flatMap commandBytes)) (by simp)
    (by simpa using hm) s
  simp only [map_encode_updates, flatMap_commandBytes_updates] at hrun
  obtain ⟨t, ht, habst, -⟩ := hrun
  obtain ⟨u, hu, habsu, -⟩ := run_reset_hasAbsorbed hno hm s
  exact ⟨t, u, ht, hu, habst.sameRegisters habsu⟩

/-! ### Digests (R186, R190) -/

/-- Settles O35: DIGEST is the last of the commands after RESET, and its answer is the digest. -/
theorem commandsComputeSkein : Obligations.CommandsComputeSkein := by
  intro m s hm
  obtain ⟨t, ht, -, hresp, hlog⟩ :=
    run_reset_hasAbsorbed (is := updates m ++ [Instr.digest]) (by simp) (by simpa using hm) s
  refine ⟨t, by simpa using ht, ?_, hlog⟩
  simpa [answersAfter_append, List.replicate_succ] using hresp

/-- Settles O36: the first DIGEST leaves the message as it is, so the second one answers for all of
it, as the replay does. -/
theorem updateAfterDigestContinues : Obligations.UpdateAfterDigestContinues := by
  intro x y s hm
  have hxy : (x ++ y).length < 2 ^ 96 := by rw [List.length_append]; exact hm
  obtain ⟨t, ht, -, hresp, hlog⟩ := run_reset_hasAbsorbed
    (is := updates x ++ [Instr.digest] ++ updates y ++ [Instr.digest]) (by simp)
    (by simpa using hxy) s
  obtain ⟨u, hu, huresp, -⟩ := commandsComputeSkein (x ++ y) s hxy
  have hresp : t.responses = s.responses ++ List.replicate (x.length + 1) (Response.ok []) ++
      [Response.ok (skein512_512 x).toList] ++ List.replicate y.length (Response.ok []) ++
      [Response.ok (skein512_512 (x ++ y)).toList] := by
    simpa [answersAfter_append, List.replicate_succ] using hresp
  refine ⟨t, u, by simpa using ht, hresp, hlog, hu, ?_⟩
  rw [huresp, hresp, List.getLast?_concat, List.getLast?_concat]

/-! ### Runs of any words -/

theorem runSteps_answers (k : Nat) {s : State} (hc : s.cnt.toNat ≤ 64) :
    ∃ t, runSteps k s = .next t := by
  induction k generalizing s with
  | zero => exact ⟨s, rfl⟩
  | succ k ih =>
    obtain ⟨t, ht, htc⟩ := everyStepAnswers s hc
    rw [runSteps, ht]
    exact ih htc

/-- With `CNT` at most 64 every run ends in a next state, whatever its words (R22, R256). -/
theorem runWords_answers (ws : List CmdWord) {s : State} (hc : s.cnt.toNat ≤ 64) :
    ∃ t, runWords ws s = .next t :=
  runSteps_answers ws.length (s := withCommands ws s) hc

/-- Settles O37: the words before RESET end in some state, and the digest after RESET is the same
from every state. -/
theorem resetForgetsTheMessage : Obligations.ResetForgetsTheMessage := by
  intro x y s hc hy
  obtain ⟨t, ht⟩ := runWords_answers (updateWords x) hc
  obtain ⟨u, hu, hresp, -⟩ := commandsComputeSkein y t hy
  refine ⟨u, ?_, ?_⟩
  · rw [runWords_append, ht, thenRun, hu]
  · rw [hresp, List.getLast?_concat]

/-- Settles O38: `UPDATE` maps the encoder over its bytes, and a run of two parts is two runs. -/
theorem chunkingDoesNotMatter : Obligations.ChunkingDoesNotMatter := by
  intro x y s
  have hwords : updateWords (x ++ y) = updateWords x ++ updateWords y := List.map_append
  refine ⟨hwords, fun t ht => ?_⟩
  rw [hwords, runWords_append, ht, thenRun]

/-- A RESET, seen without the waiting words, is power-on with a past (R251). -/
theorem respond_resetRegisters_eq (s : State) :
    respond (.ok []) (resetRegisters s) =
      withCommands s.commands
        (withPast (s.responses ++ [.ok []]) s.faultLog State.reset) := by
  simp [respond, resetRegisters, withCommands, withPast, State.reset, Memory.clear]

/-- Settles O39: a run does not depend on the words that wait before it or on the responses sent
before it, and these are all that RESET leaves different from power-on. -/
theorem resetEqualsPowerOn : Obligations.ResetEqualsPowerOn := by
  intro ws s
  obtain ⟨t, ht⟩ := runWords_answers ws reset_inv.cnt_le
  refine ⟨t, withPast (s.responses ++ [.ok []]) s.faultLog t, ht, ?_, rfl, rfl,
    ⟨rfl, rfl, rfl, rfl, rfl, rfl⟩⟩
  rw [runWords_reset_cons, respond_resetRegisters_eq, runWords_withCommands, runWords_withPast, ht,
    mapNext]

end Sys2Proof.Machine
end
